-- ==== Sys2Proof/Word.lean ====
section
/-! DEFINITION. The bit-vector widths of the hardware (spec/00_scope.md R4, spec/30_encoding.md R62). All values are
unsigned; bit 0 is the least significant bit (R8). -/

namespace Sys2Proof

/-- A register, a memory cell, the immediate NN. -/
abbrev Byte := BitVec 8

/-- An instruction word, PC, I, a stack entry. -/
abbrev Word := BitVec 16

/-- A 4-bit field of an instruction word: a register index X or Y, the height N, a key index. -/
abbrev Nibble := BitVec 4

/-- The 12-bit address operand NNN. -/
abbrev Addr := BitVec 12

/-- VF, the register that doubles as the flag register (R11). -/
abbrev regF : Nibble := 0xF#4

end Sys2Proof
end

