-- ==== Sys2Proof/Syntax.lean ====
section
/-! DEFINITION. The 34 instructions of the opcode map (spec/30_encoding.md R66, spec/opcode_table.json), one constructor a
row, in the table's order. An unknown opcode (R68) is no row and no constructor: the decoder rejects it by name. -/

namespace Sys2Proof

/-- An instruction with its operands. X, Y are register indices, NN an 8-bit immediate, NNN a 12-bit address, N a row
count (R62, R63). The last operand of `seReg` and `sneReg` is the low nibble of the word, which the hardware ignores
(R65, D4). -/
inductive Instr where
  | cls                                -- 00E0  CLS
  | ret                                -- 00EE  RET
  | jp (nnn : Addr)                    -- 1NNN  JP NNN
  | call (nnn : Addr)                  -- 2NNN  CALL NNN
  | seImm (x : Nibble) (nn : Byte)     -- 3XNN  SE VX, NN
  | sneImm (x : Nibble) (nn : Byte)    -- 4XNN  SNE VX, NN
  | seReg (x y ignored : Nibble)       -- 5XY_  SE VX, VY
  | ldImm (x : Nibble) (nn : Byte)     -- 6XNN  LD VX, NN
  | addImm (x : Nibble) (nn : Byte)    -- 7XNN  ADD VX, NN
  | ldReg (x y : Nibble)               -- 8XY0  LD VX, VY
  | orReg (x y : Nibble)               -- 8XY1  OR VX, VY
  | andReg (x y : Nibble)              -- 8XY2  AND VX, VY
  | xorReg (x y : Nibble)              -- 8XY3  XOR VX, VY
  | addReg (x y : Nibble)              -- 8XY4  ADD VX, VY
  | subReg (x y : Nibble)              -- 8XY5  SUB VX, VY
  | shrReg (x y : Nibble)              -- 8XY6  SHR VX, VY
  | subnReg (x y : Nibble)             -- 8XY7  SUBN VX, VY
  | shlReg (x y : Nibble)              -- 8XYE  SHL VX, VY
  | sneReg (x y ignored : Nibble)      -- 9XY_  SNE VX, VY
  | ldI (nnn : Addr)                   -- ANNN  LD I, NNN
  | jpV0 (nnn : Addr)                  -- BNNN  JP V0, NNN
  | rnd (x : Nibble) (nn : Byte)       -- CXNN  RND VX, NN
  | drw (x y n : Nibble)               -- DXYN  DRW VX, VY, N
  | skp (x : Nibble)                   -- EX9E  SKP VX
  | sknp (x : Nibble)                  -- EXA1  SKNP VX
  | ldVxDt (x : Nibble)                -- FX07  LD VX, DT
  | ldVxK (x : Nibble)                 -- FX0A  LD VX, K
  | ldDtVx (x : Nibble)                -- FX15  LD DT, VX
  | ldStVx (x : Nibble)                -- FX18  LD ST, VX
  | addI (x : Nibble)                  -- FX1E  ADD I, VX
  | ldF (x : Nibble)                   -- FX29  LD F, VX
  | ldB (x : Nibble)                   -- FX33  LD B, VX
  | storeRegs (x : Nibble)             -- FX55  LD [I], VX
  | loadRegs (x : Nibble)              -- FX65  LD VX, [I]
deriving DecidableEq, Repr

end Sys2Proof
end

