-- ==== Sys2Proof/WellFormed.lean ====
section
/-! DEFINITION. Which instructions an assembler emits (spec/30_encoding.md R67). Every other bound on an operand is kept
by its type: register indices are 4 bits "by decode construction" (spec/60_exceptions.md R158). -/

namespace Sys2Proof

/-- The canonical spelling of 5XY_ and 9XY_ has 0 in the ignored nibble: "an assembler emits 0 in the ignored nibble"
(R67). The machine executes the other 15 values as the same skip (R65, D4), so no meaning depends on this check. -/
def Instr.wellFormed : Instr → Bool
  | .seReg _ _ ignored => ignored == 0#4
  | .sneReg _ _ ignored => ignored == 0#4
  | .cls | .ret | .jp _ | .call _ | .seImm _ _ | .sneImm _ _ | .ldImm _ _ | .addImm _ _ => true
  | .ldReg _ _ | .orReg _ _ | .andReg _ _ | .xorReg _ _ | .addReg _ _ | .subReg _ _ | .shrReg _ _ => true
  | .subnReg _ _ | .shlReg _ _ | .ldI _ | .jpV0 _ | .rnd _ _ | .drw _ _ _ | .skp _ | .sknp _ => true
  | .ldVxDt _ | .ldVxK _ | .ldDtVx _ | .ldStVx _ | .addI _ | .ldF _ | .ldB _ | .storeRegs _ | .loadRegs _ => true

end Sys2Proof
end

