-- ==== Sys2Proof/Decode.lean ====
section
/-! DEFINITION. The decoder (spec/30_encoding.md R61 to R70), total on every word, and after it the encoder, written from
the same opcode map R66. -/

namespace Sys2Proof

/-! ### Fields of an instruction word (R62) -/

/-- G = w[15:12], the group. -/
def fieldG (w : Word) : Nibble := w.extractLsb' 12 4
/-- X = w[11:8]. -/
def fieldX (w : Word) : Nibble := w.extractLsb' 8 4
/-- Y = w[7:4]. -/
def fieldY (w : Word) : Nibble := w.extractLsb' 4 4
/-- N = w[3:0]. -/
def fieldN (w : Word) : Nibble := w.extractLsb' 0 4
/-- NN = w[7:0]. -/
def fieldNN (w : Word) : Byte := w.extractLsb' 0 8
/-- NNN = w[11:0]. -/
def fieldNNN (w : Word) : Addr := w.extractLsb' 0 12

/-! ### Decoding -/

/-- Why a word is no instruction. -/
inductive DecodeError where
  /-- The word matches no row of R66 (R68, R69). It is no fault: `step` advances PC past it. -/
  | unknownOpcode (w : Word)
deriving DecidableEq, Repr

/-- Group 0: the whole word selects (R65, D3). -/
def decodeGroup0 (w : Word) : Except DecodeError Instr :=
  if w = 0x00E0#16 then .ok .cls
  else if w = 0x00EE#16 then .ok .ret
  else .error (.unknownOpcode w)

/-- Group 8: the low nibble selects (R65). -/
def decodeGroup8 (w : Word) : Except DecodeError Instr :=
  let x := fieldX w
  let y := fieldY w
  match fieldN w with
  | 0x0#4 => .ok (.ldReg x y)
  | 0x1#4 => .ok (.orReg x y)
  | 0x2#4 => .ok (.andReg x y)
  | 0x3#4 => .ok (.xorReg x y)
  | 0x4#4 => .ok (.addReg x y)
  | 0x5#4 => .ok (.subReg x y)
  | 0x6#4 => .ok (.shrReg x y)
  | 0x7#4 => .ok (.subnReg x y)
  | 0xE#4 => .ok (.shlReg x y)
  | _ => .error (.unknownOpcode w)

/-- Group E: the low byte selects (R65). -/
def decodeGroupE (w : Word) : Except DecodeError Instr :=
  match fieldNN w with
  | 0x9E#8 => .ok (.skp (fieldX w))
  | 0xA1#8 => .ok (.sknp (fieldX w))
  | _ => .error (.unknownOpcode w)

/-- Group F: the low byte selects (R65). -/
def decodeGroupF (w : Word) : Except DecodeError Instr :=
  let x := fieldX w
  match fieldNN w with
  | 0x07#8 => .ok (.ldVxDt x)
  | 0x0A#8 => .ok (.ldVxK x)
  | 0x15#8 => .ok (.ldDtVx x)
  | 0x18#8 => .ok (.ldStVx x)
  | 0x1E#8 => .ok (.addI x)
  | 0x29#8 => .ok (.ldF x)
  | 0x33#8 => .ok (.ldB x)
  | 0x55#8 => .ok (.storeRegs x)
  | 0x65#8 => .ok (.loadRegs x)
  | _ => .error (.unknownOpcode w)

/-- Two-level dispatch on the high nibble (R65): every word is one instruction of R66 or the unknown opcode. The last arm
is group F, the one value of four bits left. -/
def decode (w : Word) : Except DecodeError Instr :=
  match fieldG w with
  | 0x0#4 => decodeGroup0 w
  | 0x1#4 => .ok (.jp (fieldNNN w))
  | 0x2#4 => .ok (.call (fieldNNN w))
  | 0x3#4 => .ok (.seImm (fieldX w) (fieldNN w))
  | 0x4#4 => .ok (.sneImm (fieldX w) (fieldNN w))
  | 0x5#4 => .ok (.seReg (fieldX w) (fieldY w) (fieldN w))
  | 0x6#4 => .ok (.ldImm (fieldX w) (fieldNN w))
  | 0x7#4 => .ok (.addImm (fieldX w) (fieldNN w))
  | 0x8#4 => decodeGroup8 w
  | 0x9#4 => .ok (.sneReg (fieldX w) (fieldY w) (fieldN w))
  | 0xA#4 => .ok (.ldI (fieldNNN w))
  | 0xB#4 => .ok (.jpV0 (fieldNNN w))
  | 0xC#4 => .ok (.rnd (fieldX w) (fieldNN w))
  | 0xD#4 => .ok (.drw (fieldX w) (fieldY w) (fieldN w))
  | 0xE#4 => decodeGroupE w
  | _ => decodeGroupF w

/-- The instruction word two bytes make: the byte at PC is the high byte (spec/20_memory.md R43). -/
def joinBytes (hi lo : Byte) : Word := BitVec.ofNat 16 (hi.toNat * 256 + lo.toNat)

/-- Decoding the two bytes of an instruction as they stand in memory. -/
def decodeBytes (hi lo : Byte) : Except DecodeError Instr := decode (joinBytes hi lo)

/-- What the decoder reads from an instruction whose bits are `w`, numbered as spec/opcode_table.json numbers them. An
instruction is one 16-bit word (R61), stored high byte first (R43); bits above `nbits` are 0. -/
def decodeTableWord (nbits w : Nat) : Option Instr :=
  let bits := w % 2 ^ nbits
  (decodeBytes (BitVec.ofNat 8 (bits / 256)) (BitVec.ofNat 8 bits)).toOption

/-! ### Encoding (R62's formats, R66's patterns) -/

/-- Format A: G NNN. -/
def wordA (g : Nibble) (nnn : Addr) : Word := BitVec.ofNat 16 (g.toNat * 0x1000 + nnn.toNat)
/-- Formats XI and XF: G X NN, and G X ff. -/
def wordXI (g x : Nibble) (nn : Byte) : Word := BitVec.ofNat 16 (g.toNat * 0x1000 + x.toNat * 0x100 + nn.toNat)
/-- Formats XY and XYN: G X Y f, and G X Y N. -/
def wordXY (g x y n : Nibble) : Word :=
  BitVec.ofNat 16 (g.toNat * 0x1000 + x.toNat * 0x100 + y.toNat * 0x10 + n.toNat)

/-- The word of an instruction (R66). -/
def encode : Instr → Word
  | .cls => 0x00E0#16
  | .ret => 0x00EE#16
  | .jp nnn => wordA 0x1#4 nnn
  | .call nnn => wordA 0x2#4 nnn
  | .seImm x nn => wordXI 0x3#4 x nn
  | .sneImm x nn => wordXI 0x4#4 x nn
  | .seReg x y ignored => wordXY 0x5#4 x y ignored
  | .ldImm x nn => wordXI 0x6#4 x nn
  | .addImm x nn => wordXI 0x7#4 x nn
  | .ldReg x y => wordXY 0x8#4 x y 0x0#4
  | .orReg x y => wordXY 0x8#4 x y 0x1#4
  | .andReg x y => wordXY 0x8#4 x y 0x2#4
  | .xorReg x y => wordXY 0x8#4 x y 0x3#4
  | .addReg x y => wordXY 0x8#4 x y 0x4#4
  | .subReg x y => wordXY 0x8#4 x y 0x5#4
  | .shrReg x y => wordXY 0x8#4 x y 0x6#4
  | .subnReg x y => wordXY 0x8#4 x y 0x7#4
  | .shlReg x y => wordXY 0x8#4 x y 0xE#4
  | .sneReg x y ignored => wordXY 0x9#4 x y ignored
  | .ldI nnn => wordA 0xA#4 nnn
  | .jpV0 nnn => wordA 0xB#4 nnn
  | .rnd x nn => wordXI 0xC#4 x nn
  | .drw x y n => wordXY 0xD#4 x y n
  | .skp x => wordXI 0xE#4 x 0x9E#8
  | .sknp x => wordXI 0xE#4 x 0xA1#8
  | .ldVxDt x => wordXI 0xF#4 x 0x07#8
  | .ldVxK x => wordXI 0xF#4 x 0x0A#8
  | .ldDtVx x => wordXI 0xF#4 x 0x15#8
  | .ldStVx x => wordXI 0xF#4 x 0x18#8
  | .addI x => wordXI 0xF#4 x 0x1E#8
  | .ldF x => wordXI 0xF#4 x 0x29#8
  | .ldB x => wordXI 0xF#4 x 0x33#8
  | .storeRegs x => wordXI 0xF#4 x 0x55#8
  | .loadRegs x => wordXI 0xF#4 x 0x65#8

/-- The high byte of a word, the first in memory. -/
def highByte (w : Word) : Byte := w.extractLsb' 8 8
/-- The low byte of a word. -/
def lowByte (w : Word) : Byte := w.extractLsb' 0 8

/-! ### The opcode map as the spec prints it -/

/-- R66's columns match and mask, a row a line, in the table's order. The decoder does not read it: that the decoder
agrees with it is an obligation. -/
def opcodeMap : List (Word × Word) :=
  [(0x00E0#16, 0xFFFF#16), (0x00EE#16, 0xFFFF#16), (0x1000#16, 0xF000#16), (0x2000#16, 0xF000#16),
   (0x3000#16, 0xF000#16), (0x4000#16, 0xF000#16), (0x5000#16, 0xF000#16), (0x6000#16, 0xF000#16),
   (0x7000#16, 0xF000#16), (0x8000#16, 0xF00F#16), (0x8001#16, 0xF00F#16), (0x8002#16, 0xF00F#16),
   (0x8003#16, 0xF00F#16), (0x8004#16, 0xF00F#16), (0x8005#16, 0xF00F#16), (0x8006#16, 0xF00F#16),
   (0x8007#16, 0xF00F#16), (0x800E#16, 0xF00F#16), (0x9000#16, 0xF000#16), (0xA000#16, 0xF000#16),
   (0xB000#16, 0xF000#16), (0xC000#16, 0xF000#16), (0xD000#16, 0xF000#16), (0xE09E#16, 0xF0FF#16),
   (0xE0A1#16, 0xF0FF#16), (0xF007#16, 0xF0FF#16), (0xF00A#16, 0xF0FF#16), (0xF015#16, 0xF0FF#16),
   (0xF018#16, 0xF0FF#16), (0xF01E#16, 0xF0FF#16), (0xF029#16, 0xF0FF#16), (0xF033#16, 0xF0FF#16),
   (0xF055#16, 0xF0FF#16), (0xF065#16, 0xF0FF#16)]

/-- The row of R66's table an instruction belongs to, counted from 0. -/
def Instr.row : Instr → Fin 34
  | .cls => 0
  | .ret => 1
  | .jp _ => 2
  | .call _ => 3
  | .seImm _ _ => 4
  | .sneImm _ _ => 5
  | .seReg _ _ _ => 6
  | .ldImm _ _ => 7
  | .addImm _ _ => 8
  | .ldReg _ _ => 9
  | .orReg _ _ => 10
  | .andReg _ _ => 11
  | .xorReg _ _ => 12
  | .addReg _ _ => 13
  | .subReg _ _ => 14
  | .shrReg _ _ => 15
  | .subnReg _ _ => 16
  | .shlReg _ _ => 17
  | .sneReg _ _ _ => 18
  | .ldI _ => 19
  | .jpV0 _ => 20
  | .rnd _ _ => 21
  | .drw _ _ _ => 22
  | .skp _ => 23
  | .sknp _ => 24
  | .ldVxDt _ => 25
  | .ldVxK _ => 26
  | .ldDtVx _ => 27
  | .ldStVx _ => 28
  | .addI _ => 29
  | .ldF _ => 30
  | .ldB _ => 31
  | .storeRegs _ => 32
  | .loadRegs _ => 33

/-- Does the word select row `k` of R66's table: `(w & mask) == match`. -/
def matchesRow (w : Word) (k : Fin 34) : Bool :=
  match opcodeMap[k.val]? with
  | some (m, mask) => w &&& mask == m
  | none => false

end Sys2Proof
end

