-- ==== Sys2Proof/Config.lean ====
section
/-! DEFINITION. What is fixed at `Reset` for the life of the machine (spec/00_scope.md R5), and the free values: opaque
constants that nothing in Lean can evaluate, so a claim about one holds for every value. -/

namespace Sys2Proof

/-- The configuration that `Reset(cfg)` takes and no other operation changes (R5, spec/10_state.md R31). -/
structure Config where
  /-- SHIFT_SRC_VY: the source of 8XY6 and 8XYE is VY if true, VX if false. OPEN in the spec (D8). -/
  shiftSrcVy : Bool
  /-- SPRITE_WRAP: sprite pixels past the edge wrap if true, are clipped if false (the default, D9). -/
  spriteWrap : Bool
  /-- FONT_BASE: the address of the font table. OPEN in the spec (D10). -/
  fontBase : Addr
  /-- FONT_DATA: the 80 bytes of the font table (D11). -/
  fontData : Vector Byte 80
  /-- Which random source is injected; its bytes are the free values `Config.rngByte` (D19). -/
  rngSource : Nat
deriving DecidableEq, Repr

/-- What `Reset` requires of a configuration: FONT_BASE + 80 <= 0x200 (R5, spec/70_reset_and_hazards.md R170). -/
abbrev Config.legal (cfg : Config) : Prop := cfg.fontBase.toNat + 80 ≤ 0x200

/-- Free value: byte `k` of the stream that the injected source `source` gives after `Reset` (spec/10_state.md R29:
"a stream of bytes fixed (but unknown) at Reset"). Log entry 5. -/
opaque Config.rngByte (source k : Nat) : Byte

/-- Free value: SHIFT_SRC_VY of the machine `State.reset`; the spec takes no default (D8). Log entry 2. -/
opaque Config.freeShiftSrcVy : Bool

/-- Free value: FONT_BASE of the machine `State.reset`, within the one bound the spec sets: FONT_BASE + 80 <= 0x200
leaves 0 to 432 (D10). Log entry 3. -/
opaque Config.freeFontBase : Fin 433

end Sys2Proof
end

