-- ==== Sys2Proof/Machine/Params.lean ====
section
/-! DEFINITION. The configuration of the machine `State.reset` (spec/00_scope.md R5). Every other machine is
`State.resetWith cfg` for its own configuration. -/

namespace Sys2Proof.Machine

/-- FONT_DATA's default, the customary hexadecimal digit font: glyph `d` is bytes 5*d to 5*d+4 (spec/20_memory.md R47).
The spec itself takes the bytes from general knowledge (D11). Log entry 4. -/
def customaryFont : Vector Byte 80 :=
  #v[0xF0, 0x90, 0x90, 0x90, 0xF0,   -- 0
     0x20, 0x60, 0x20, 0x20, 0x70,   -- 1
     0xF0, 0x10, 0xF0, 0x80, 0xF0,   -- 2
     0xF0, 0x10, 0xF0, 0x10, 0xF0,   -- 3
     0x90, 0x90, 0xF0, 0x10, 0x10,   -- 4
     0xF0, 0x80, 0xF0, 0x10, 0xF0,   -- 5
     0xF0, 0x80, 0xF0, 0x90, 0xF0,   -- 6
     0xF0, 0x10, 0x20, 0x40, 0x40,   -- 7
     0xF0, 0x90, 0xF0, 0x90, 0xF0,   -- 8
     0xF0, 0x90, 0xF0, 0x10, 0xF0,   -- 9
     0xF0, 0x90, 0xF0, 0x90, 0x90,   -- A
     0xE0, 0x90, 0xE0, 0x90, 0xE0,   -- B
     0xF0, 0x80, 0x80, 0x80, 0xF0,   -- C
     0xE0, 0x90, 0x90, 0x90, 0xE0,   -- D
     0xF0, 0x80, 0xF0, 0x80, 0xF0,   -- E
     0xF0, 0x80, 0xF0, 0x80, 0x80]   -- F

/-- The configuration of `State.reset`: SHIFT_SRC_VY and FONT_BASE are free (the spec takes no default, D8, D10),
SPRITE_WRAP is the default clip (D9), FONT_DATA the customary table (D11), the random bytes are free (D19). -/
def resetConfig : Config where
  shiftSrcVy := Config.freeShiftSrcVy
  spriteWrap := false
  fontBase := BitVec.ofNat 12 Config.freeFontBase.val
  fontData := customaryFont
  rngSource := 0

end Sys2Proof.Machine
end

