-- ==== Sys2Proof/Machine/State.lean ====
section
/-! DEFINITION. The machine state (spec/10_state.md), the reasons an operation can stop, and the state after reset. -/

namespace Sys2Proof.Machine

/-- `status`, the run status (R25). The spec allows an inductive type in place of its 2-bit code (D17, U16). -/
inductive Status where
  /-- 0 RUNNING -/
  | running
  /-- 1 STACK_OVERFLOW: a 2NNN met SP = 16 (spec/60_exceptions.md R141). -/
  | stackOverflow
  /-- 2 STACK_UNDERFLOW: a 00EE met SP = 0 (R141). -/
  | stackUnderflow
deriving DecidableEq, Repr

/-- `Disp[x][y]`: 64 columns of 32 cells, column `x` from the left, row `y` from the top, `true` = on (R24). -/
abbrev Display := Vector (Vector Bool 32) 64

/-- All the state of the block (R2, R10 to R29), plus the configuration `Reset` fixed (R31). -/
structure State where
  /-- V0..VF (R10). -/
  v : Vector Byte 16
  /-- I, the index register, all 16 bits kept (R18). -/
  i : Word
  /-- PC (R13); every write goes through `State.setPc`, which stores it modulo 4096 (R14). -/
  pc : Word
  /-- SP, an integer in 0..16: how many stack entries are in use (R19). -/
  sp : Fin 17
  /-- Stack[0..15], separate from memory (R23). -/
  stack : Vector Word 16
  /-- DT, the delay timer (R20). -/
  dt : Byte
  /-- ST, the sound timer (R21). -/
  st : Byte
  /-- The display buffer (R24). -/
  disp : Display
  /-- The dirty flag (R22). -/
  dirty : Bool
  /-- Key[0..15], `true` = pressed (R26). -/
  key : Vector Bool 16
  /-- The run status (R25). -/
  status : Status
  /-- Mem (R27): the cells that differ from what `Reset(cfg)` left, in the canonical form `Memory.wf`. -/
  mem : List Host.Cell
  /-- How many bytes of the random stream have been consumed since `Reset` (R29). -/
  rngCount : Nat
  /-- The configuration of the last `Reset`; no other operation writes it (R31). Log entry 1. -/
  cfg : Config
deriving DecidableEq, Repr

/-- Why an operation stops with an error. `step` raises none: its two faults are states (`Status`, R142). -/
inductive Fault where
  /-- Raised by the host operation `LoadProgram` for more than 3584 bytes: "fatal at load time, reported, no partial
  load" (spec/70_reset_and_hazards.md R173, U17). Safe: nothing runs after it. -/
  | romTooLarge
deriving DecidableEq, Repr

/-- Why an operation is refused. -/
inductive Refusal where
  /-- An instruction whose meaning is not written: raised by an arm of `exec` alone. No arm raises it now. Safe. -/
  | notModelled (mnemonic : String)
  /-- Raised by the host operation `LoadProgram` in any state but the one `Reset` leaves (R173, D23, U18). Safe. -/
  | loadOutsideReset
  /-- Raised by the host operation `Reset` for FONT_BASE + 80 > 0x200 (R170, U18). Safe. -/
  | illegalConfig
deriving DecidableEq, Repr

/-- The state `Reset(cfg)` leaves (R30, spec/70_reset_and_hazards.md R170). Memory lists nothing: an unlisted cell reads
as its reset contents (`memBackground`), which is the font table and zeros. -/
def State.resetWith (cfg : Config) : State where
  v := Vector.replicate 16 0x00#8
  i := 0x0000#16
  pc := 0x200#16
  sp := 0
  stack := Vector.replicate 16 0x0000#16
  dt := 0x00#8
  st := 0x00#8
  disp := Vector.replicate 64 (Vector.replicate 32 false)
  dirty := false
  key := Vector.replicate 16 false
  status := .running
  mem := []
  rngCount := 0
  cfg := cfg

/-- The machine right after reset, with the configuration `resetConfig`. -/
def State.reset : State := State.resetWith resetConfig

end Sys2Proof.Machine
end

