-- ==== Sys2Proof/Machine/Memory.lean ====
section
/-! DEFINITION. Memory (spec/20_memory.md): the reset contents, the canonical list of the cells that differ from them, and
the two access primitives MemRead and MemWrite. No access faults. -/

namespace Sys2Proof.Machine

/-- What `Reset(cfg)` leaves at address `a`, which is what an unlisted address reads as: 0 in the program region
0x200..0xFFF (R50), `FONT_DATA[i]` at `FONT_BASE + i` below it, and 0 elsewhere (spec/10_state.md R30). -/
def memBackground (cfg : Config) (a : Nat) : Byte :=
  if 0x200 ≤ a then 0#8
  else if h : cfg.fontBase.toNat ≤ a ∧ a < cfg.fontBase.toNat + 80 then
    cfg.fontData[a - cfg.fontBase.toNat]'(by omega)
  else 0#8

/-- The byte at address `a`: the listed cell, or the reset contents. -/
def cellsGet (cfg : Config) : List Host.Cell → Nat → Byte
  | [], a => memBackground cfg a
  | (k, c) :: rest, a => if k = a then c else cellsGet cfg rest a

/-- Put the cell of address `a` before the first cell of a higher address. -/
def cellsInsert (a : Nat) (b : Byte) : List Host.Cell → List Host.Cell
  | [] => [(a, b)]
  | (k, c) :: rest => if a < k then (a, b) :: (k, c) :: rest else (k, c) :: cellsInsert a b rest

/-- Store byte `b` at address `a`, keeping the canonical form: the old cell goes, and the new one is listed only if it
differs from the reset contents. -/
def cellsPut (cfg : Config) (cells : List Host.Cell) (a : Nat) (b : Byte) : List Host.Cell :=
  let others := cells.filter fun c => c.1 != a
  if b = memBackground cfg a then others else cellsInsert a b others

/-- The canonical form: addresses strictly rising and below 4096, no cell equal to the reset contents of its address. -/
abbrev Memory.wf (cfg : Config) (cells : List Host.Cell) : Prop :=
  cells.Pairwise (fun c d => c.1 < d.1) ∧ ∀ c ∈ cells, c.1 < 4096 ∧ c.2 ≠ memBackground cfg c.1

/-- `MemRead(addr, 1)`: the index is masked to 12 bits (R40). -/
def State.memRead (s : State) (addr : Nat) : Byte := cellsGet s.cfg s.mem (addr % 4096)

/-- `MemWrite(addr, 1, b)`: the index is masked to 12 bits; every index is writable, the font included (R41, R48). -/
def State.memWrite (s : State) (addr : Nat) (b : Byte) : State :=
  { s with mem := cellsPut s.cfg s.mem (addr % 4096) b }

/-- Store bytes at `base`, `base + 1`, ... in ascending order; addresses wrap modulo 4096 (R42). -/
def State.memWriteBlock (s : State) (base : Nat) : List Byte → State
  | [] => s
  | b :: rest => (s.memWrite base b).memWriteBlock (base + 1) rest

/-- The `count` bytes at `base`, `base + 1`, ... ; addresses wrap modulo 4096 (R42). -/
def State.memReadBlock (s : State) (base count : Nat) : List Byte :=
  (List.range count).map fun k => s.memRead (base + k)

end Sys2Proof.Machine
end

