-- ==== Sys2Proof/Machine/Ops.lean ====
section
/-! DEFINITION. The named operations over registers, PC, the stack, the fetch, the fault entry and the random stream.
Memory's are in Machine/Memory.lean. -/

namespace Sys2Proof.Machine

/-- What one operation answers. -/
abbrev Result := Host.Outcome State Fault Refusal

/-! ### General registers (spec/10_state.md R10) -/

/-- `V[x]`. -/
def State.readV (s : State) (x : Nibble) : Byte := s.v[x.toNat]'x.isLt

/-- `V[x] <- b`. -/
def State.writeV (s : State) (x : Nibble) (b : Byte) : State := { s with v := s.v.set x.toNat b x.isLt }

/-- `V[0]`, ..., `V[x]` in ascending order. -/
def State.readVs (s : State) (x : Nibble) : List Byte :=
  (List.range (x.toNat + 1)).map fun k => s.readV (BitVec.ofNat 4 k)

/-- `V[k] <- b0`, `V[k+1] <- b1`, ... in ascending order. -/
def State.writeVs (s : State) (k : Nat) : List Byte → State
  | [] => s
  | b :: rest => (s.writeV (BitVec.ofNat 4 k) b).writeVs (k + 1) rest

/-! ### The other registers -/

/-- `I <- w`, all 16 bits kept (R18). -/
def State.setI (s : State) (w : Word) : State := { s with i := w }

/-- `DT <- b` (R20). -/
def State.setDt (s : State) (b : Byte) : State := { s with dt := b }

/-- `ST <- b` (R21). -/
def State.setSt (s : State) (b : Byte) : State := { s with st := b }

/-- `status <- c` (R25). -/
def State.setStatus (s : State) (c : Status) : State := { s with status := c }

/-- Replace the display buffer and set the dirty flag: "the core only sets it on mutation, never clears it" (R22). -/
def State.setDisplay (s : State) (d : Display) : State := { s with disp := d, dirty := true }

/-! ### Program counter (R13 to R16) -/

/-- `pc <- w`: every write stores the value modulo 4096 (R14). -/
def State.setPc (s : State) (w : Word) : State := { s with pc := w % 4096#16 }

/-- `pc <- pc + 2`: every instruction that neither branches nor skips (R16). -/
def State.advance (s : State) : State := s.setPc (s.pc + 2#16)

/-- `pc <- pc + 4` if the condition holds, else `pc <- pc + 2` (R16). -/
def State.skipIf (s : State) (cond : Bool) : State := s.setPc (if cond then s.pc + 4#16 else s.pc + 2#16)

/-! ### The hardware stack (R19, R23) -/

/-- Write the stack entries and SP. -/
def State.setStack (s : State) (entries : Vector Word 16) (sp : Fin 17) : State := { s with stack := entries, sp := sp }

/-- `Stack[SP] <- w; SP <- SP + 1`; none if the stack is full. -/
def State.push (s : State) (w : Word) : Option State :=
  if h : s.sp.val < 16 then some (s.setStack (s.stack.set s.sp.val w h) ⟨s.sp.val + 1, by omega⟩) else none

/-- `SP <- SP - 1` and the entry `Stack[SP - 1]`, which keeps its value in the array (R23); none if the stack is empty. -/
def State.pop (s : State) : Option (Word × State) :=
  if h : 0 < s.sp.val then
    some (s.stack[s.sp.val - 1]'(by omega), s.setStack s.stack ⟨s.sp.val - 1, by omega⟩)
  else none

/-! ### Fetch (spec/20_memory.md R43, spec/30_encoding.md R60) -/

/-- `MemRead(pc, 2)`: the byte at PC is the high byte, the byte at PC + 1 (modulo 4096) the low byte; PC is not changed. -/
def State.fetchWord (s : State) : Word := joinBytes (s.memRead s.pc.toNat) (s.memRead (s.pc.toNat + 1))

/-- `s` with the instruction word `w` stored where the next fetch reads it, and running, which a fetch needs (R60). -/
def State.placeWord (s : State) (w : Word) : State :=
  ((s.memWrite s.pc.toNat (highByte w)).memWrite (s.pc.toNat + 1) (lowByte w)).setStatus .running

/-- Halted: `status != RUNNING` (spec/60_exceptions.md R143). -/
def State.halted (s : State) : Bool := s.status != .running

/-! ### Fault entry (spec/60_exceptions.md R142) -/

/-- Taking a fault: `status` receives the code and nothing else changes; PC still holds the address of the faulting
instruction. There is no handler, no saved context and no return from it: only `Reset` leaves the halted state (R148). -/
def takeFault (code : Status) (s : State) : Result := .next (s.setStatus code)

/-! ### The unknown opcode (spec/30_encoding.md R68) -/

/-- A word that matches no row of R66: PC advances by 2 and nothing else changes. The event it emits is in `stepReport`. -/
def execUnknown (_e : DecodeError) (s : State) : Result := .next s.advance

/-! ### The random stream (R29) -/

/-- `draw Rng`: the next byte of the stream and the state in which it has been consumed. -/
def State.drawRng (s : State) : Byte × State :=
  (Config.rngByte s.cfg.rngSource s.rngCount, { s with rngCount := s.rngCount + 1 })

end Sys2Proof.Machine
end

