-- ==== Sys2Proof/Machine/Operands.lean ====
section
/-! DEFINITION. The operand forms (spec/30_encoding.md R63): 12-bit addresses, key indices, glyph digits, the shift source
and the sprite origin. A register operand is `State.readV`; NN and N are the fields themselves. -/

namespace Sys2Proof.Machine

/-- NNN zero-extended to 16 bits, as it is written to I or PC (R63). -/
def addrWord (nnn : Addr) : Word := nnn.setWidth 16

/-- `zext_16` of a register. -/
def byteWord (b : Byte) : Word := b.setWidth 16

/-- `V[X][3:0]`: the key index of EX9E and EXA1 (spec/44_keypad_timer_instr.md R130) and the glyph digit of FX29
(spec/42_index_memory.md R112, D12). -/
def lowNibble (b : Byte) : Nibble := b.extractLsb' 0 4

/-- `Key[k]` (spec/10_state.md R26). -/
def State.keyDown (s : State) (k : Nibble) : Bool := s.key[k.toNat]'k.isLt

/-- The smallest index of a pressed key, if any (spec/44_keypad_timer_instr.md R135). -/
def State.firstKey (s : State) : Option Nibble :=
  ((List.range 16).map (BitVec.ofNat 4)).find? s.keyDown

/-- The address of glyph `d`: `FONT_BASE + 5 * d` (spec/42_index_memory.md R112, spec/20_memory.md R47). -/
def State.glyphAddr (s : State) (d : Nibble) : Word := BitVec.ofNat 16 (s.cfg.fontBase.toNat + 5 * d.toNat)

/-- The source of 8XY6 and 8XYE: VY if SHIFT_SRC_VY, else VX (spec/41_load_alu_random.md R97, D8). -/
def State.shiftSource (s : State) (x y : Nibble) : Byte := if s.cfg.shiftSrcVy then s.readV y else s.readV x

/-- The origin column of a sprite: `V[X] mod 64` (spec/43_display.md R121). -/
def State.originX (s : State) (x : Nibble) : Nat := (s.readV x).toNat % 64

/-- The origin row of a sprite: `V[Y] mod 32` (R121). -/
def State.originY (s : State) (y : Nibble) : Nat := (s.readV y).toNat % 32

end Sys2Proof.Machine
end

