-- ==== Sys2Proof/Machine/ControlFlow.lean ====
section
/-! DEFINITION. The control transfer instructions (spec/40_control_flow.md). -/

namespace Sys2Proof.Machine

/-- 00EE RET (R82). -/
def execRet (s : State) : Result :=
  match s.pop with
  | none => takeFault .stackUnderflow s
  | some (ra, t) => .next (t.setPc (ra + 2#16))

/-- 1NNN JP NNN (R80). -/
def execJp (nnn : Addr) (s : State) : Result := .next (s.setPc (addrWord nnn))

/-- 2NNN CALL NNN (R81): the value pushed is the address of the call itself. -/
def execCall (nnn : Addr) (s : State) : Result :=
  match s.push s.pc with
  | none => takeFault .stackOverflow s
  | some t => .next (t.setPc (addrWord nnn))

/-- 3XNN SE VX, NN (R83). -/
def execSeImm (x : Nibble) (nn : Byte) (s : State) : Result := .next (s.skipIf (s.readV x == nn))

/-- 4XNN SNE VX, NN (R84). -/
def execSneImm (x : Nibble) (nn : Byte) (s : State) : Result := .next (s.skipIf (s.readV x != nn))

/-- 5XY_ SE VX, VY (R85). -/
def execSeReg (x y : Nibble) (s : State) : Result := .next (s.skipIf (s.readV x == s.readV y))

/-- 9XY_ SNE VX, VY (R86). -/
def execSneReg (x y : Nibble) (s : State) : Result := .next (s.skipIf (s.readV x != s.readV y))

/-- BNNN JP V0, NNN (R87): the offset register is always V0. -/
def execJpV0 (nnn : Addr) (s : State) : Result := .next (s.setPc (addrWord nnn + byteWord (s.readV 0#4)))

end Sys2Proof.Machine
end

