-- ==== Sys2Proof/Machine/Flags.lean ====
section
/-! DEFINITION. The flag computations of the instructions that write VF (spec/10_state.md R17,
spec/41_load_alu_random.md R102), and the order of the two writes of such an instruction. -/

namespace Sys2Proof.Machine

/-- A flag as VF holds it: 1 or 0 (spec/10_state.md R11). -/
def flagByte (f : Bool) : Byte := if f then 1#8 else 0#8

/-- Carry out of an add: the widened sum is above 255 (R95). -/
def carryOut (a b : Byte) : Bool := 255 < a.toNat + b.toNat

/-- No borrow in `a - b`: `a >= b`, equality included (R96, R98). -/
def noBorrow (a b : Byte) : Bool := b.toNat ≤ a.toNat

/-- The bit a right shift shifts out (R97). -/
def shiftedOutRight (s : Byte) : Bool := s.getLsbD 0

/-- The bit a left shift shifts out (R99). -/
def shiftedOutLeft (s : Byte) : Bool := s.getLsbD 7

/-- `VF <- flag; V[X] <- result`, in that order: with X = F the result is what VF holds (spec/30_encoding.md R64, D5). -/
def State.writeFlagThenV (s : State) (flag : Bool) (x : Nibble) (result : Byte) : State :=
  (s.writeV regF (flagByte flag)).writeV x result

end Sys2Proof.Machine
end

