-- ==== Sys2Proof/Machine/DisplayOps.lean ====
section
/-! DEFINITION. The display instructions and the sprite compositor (spec/43_display.md). -/

namespace Sys2Proof.Machine

/-- Every cell off. -/
def blankDisplay : Display := Vector.replicate 64 (Vector.replicate 32 false)

/-- `Disp[x][y]`. -/
def pixel (d : Display) (x : Fin 64) (y : Fin 32) : Bool := d[x][y]

/-- `Disp[x][y] <- Disp[x][y] ^ 1`. -/
def flipPixel (d : Display) (x : Fin 64) (y : Fin 32) : Display :=
  d.set x.val (d[x].set y.val (!pixel d x y) y.isLt) x.isLt

/-- The column a sprite bit lands on: itself up to 63, past the edge wrapped or clipped (R121, D9). -/
def landColumn (wrap : Bool) (x : Nat) : Option (Fin 64) :=
  if h : x < 64 then some ⟨x, h⟩
  else if wrap then some ⟨x % 64, Nat.mod_lt x (by omega)⟩
  else none

/-- The row a sprite bit lands on: itself up to 31, past the edge wrapped or clipped (R121, D9). -/
def landRow (wrap : Bool) (y : Nat) : Option (Fin 32) :=
  if h : y < 32 then some ⟨y, h⟩
  else if wrap then some ⟨y % 32, Nat.mod_lt y (by omega)⟩
  else none

/-- One sprite bit at (x, y) before clipping or wrapping: a set bit that lands flips its cell, and collides if the cell
was on; a clear or clipped bit does nothing (R121). The pair is the display and whether there was a collision. -/
def drawBit (wrap : Bool) (x y : Nat) (bit : Bool) (acc : Display × Bool) : Display × Bool :=
  if bit then
    match landColumn wrap x, landRow wrap y with
    | some cx, some cy => (flipPixel acc.1 cx cy, acc.2 || pixel acc.1 cx cy)
    | _, _ => acc
  else acc

/-- One sprite row: bit 7 first, at column `x0`; bit `7 - c` at column `x0 + c` (R121). -/
def drawRow (wrap : Bool) (x0 y : Nat) (row : Byte) (acc : Display × Bool) : Display × Bool :=
  (List.range 8).foldl (fun acc c => drawBit wrap (x0 + c) y (row.getLsbD (7 - c)) acc) acc

/-- The rows of a sprite, top to bottom from row `y` (R121). -/
def drawRows (wrap : Bool) (x0 : Nat) : Nat → List Byte → Display × Bool → Display × Bool
  | _, [], acc => acc
  | y, row :: rest, acc => drawRows wrap x0 (y + 1) rest (drawRow wrap x0 y row acc)

/-- 00E0 CLS (R120). -/
def execCls (s : State) : Result := .next (s.setDisplay blankDisplay).advance

/-- DXYN DRW VX, VY, N (R121): the origin and the sprite's bytes are read before VF is written. -/
def execDrw (x y n : Nibble) (s : State) : Result :=
  let drawn :=
    drawRows s.cfg.spriteWrap (s.originX x) (s.originY y) (s.memReadBlock s.i.toNat n.toNat) (s.disp, false)
  .next ((s.writeV regF (flagByte drawn.2)).setDisplay drawn.1).advance

end Sys2Proof.Machine
end

