-- ==== Sys2Proof/Machine/IndexMemory.lean ====
section
/-! DEFINITION. Index register and memory instructions (spec/42_index_memory.md). The effective address of element k is
(I + k) mod 4096, and only ANNN, FX1E and FX29 change I (R116). -/

namespace Sys2Proof.Machine

/-- ANNN LD I, NNN (R110). -/
def execLdI (nnn : Addr) (s : State) : Result := .next (s.setI (addrWord nnn)).advance

/-- FX1E ADD I, VX (R111): modulo 65536, no flag. -/
def execAddI (x : Nibble) (s : State) : Result := .next (s.setI (s.i + byteWord (s.readV x))).advance

/-- FX29 LD F, VX (R112). -/
def execLdF (x : Nibble) (s : State) : Result := .next (s.setI (s.glyphAddr (lowNibble (s.readV x)))).advance

/-- Hundreds, tens and ones of a byte (R113). -/
def bcdDigits (b : Byte) : List Byte := [b / 100#8, b / 10#8 % 10#8, b % 10#8]

/-- FX33 LD B, VX (R113). -/
def execLdB (x : Nibble) (s : State) : Result :=
  .next (s.memWriteBlock s.i.toNat (bcdDigits (s.readV x))).advance

/-- FX55 LD [I], VX (R114). -/
def execStoreRegs (x : Nibble) (s : State) : Result :=
  .next (s.memWriteBlock s.i.toNat (s.readVs x)).advance

/-- FX65 LD VX, [I] (R115): the bytes are all read before any register is written. -/
def execLoadRegs (x : Nibble) (s : State) : Result :=
  .next (s.writeVs 0 (s.memReadBlock s.i.toNat (x.toNat + 1))).advance

end Sys2Proof.Machine
end

