-- ==== Sys2Proof/Machine/KeypadTimer.lean ====
section
/-! DEFINITION. Keypad and timer instructions (spec/44_keypad_timer_instr.md). -/

namespace Sys2Proof.Machine

/-- EX9E SKP VX (R130). -/
def execSkp (x : Nibble) (s : State) : Result := .next (s.skipIf (s.keyDown (lowNibble (s.readV x))))

/-- EXA1 SKNP VX (R131). -/
def execSknp (x : Nibble) (s : State) : Result := .next (s.skipIf (!s.keyDown (lowNibble (s.readV x))))

/-- FX07 LD VX, DT (R132). -/
def execLdVxDt (x : Nibble) (s : State) : Result := .next (s.writeV x s.dt).advance

/-- FX0A LD VX, K (R135): with no key pressed nothing changes and the same instruction is fetched again. -/
def execLdVxK (x : Nibble) (s : State) : Result :=
  match s.firstKey with
  | some k => .next (s.writeV x (k.setWidth 8)).advance
  | none => .next s

/-- FX15 LD DT, VX (R133). -/
def execLdDtVx (x : Nibble) (s : State) : Result := .next (s.setDt (s.readV x)).advance

/-- FX18 LD ST, VX (R134). -/
def execLdStVx (x : Nibble) (s : State) : Result := .next (s.setSt (s.readV x)).advance

end Sys2Proof.Machine
end

