-- ==== Sys2Proof/Machine/LoadAlu.lean ====
section
/-! DEFINITION. Register load, ALU and random instructions (spec/41_load_alu_random.md). Every operand is read from the
state before the instruction (spec/30_encoding.md R64). -/

namespace Sys2Proof.Machine

/-- 6XNN LD VX, NN (R90). -/
def execLdImm (x : Nibble) (nn : Byte) (s : State) : Result := .next (s.writeV x nn).advance

/-- 7XNN ADD VX, NN (R91): wraps, no flag. -/
def execAddImm (x : Nibble) (nn : Byte) (s : State) : Result := .next (s.writeV x (s.readV x + nn)).advance

/-- 8XY0 LD VX, VY (R92). -/
def execLdReg (x y : Nibble) (s : State) : Result := .next (s.writeV x (s.readV y)).advance

/-- 8XY1 OR VX, VY (R93). VF is not written as a flag (D14). -/
def execOrReg (x y : Nibble) (s : State) : Result := .next (s.writeV x (s.readV x ||| s.readV y)).advance

/-- 8XY2 AND VX, VY (R94). -/
def execAndReg (x y : Nibble) (s : State) : Result := .next (s.writeV x (s.readV x &&& s.readV y)).advance

/-- 8XY3 XOR VX, VY (R100). -/
def execXorReg (x y : Nibble) (s : State) : Result := .next (s.writeV x (s.readV x ^^^ s.readV y)).advance

/-- 8XY4 ADD VX, VY (R95). -/
def execAddReg (x y : Nibble) (s : State) : Result :=
  let a := s.readV x
  let b := s.readV y
  .next (s.writeFlagThenV (carryOut a b) x (a + b)).advance

/-- 8XY5 SUB VX, VY (R96). -/
def execSubReg (x y : Nibble) (s : State) : Result :=
  let a := s.readV x
  let b := s.readV y
  .next (s.writeFlagThenV (noBorrow a b) x (a - b)).advance

/-- 8XY6 SHR VX, VY (R97). -/
def execShrReg (x y : Nibble) (s : State) : Result :=
  let src := s.shiftSource x y
  .next (s.writeFlagThenV (shiftedOutRight src) x (src >>> 1)).advance

/-- 8XY7 SUBN VX, VY (R98). -/
def execSubnReg (x y : Nibble) (s : State) : Result :=
  let a := s.readV x
  let b := s.readV y
  .next (s.writeFlagThenV (noBorrow b a) x (b - a)).advance

/-- 8XYE SHL VX, VY (R99). -/
def execShlReg (x y : Nibble) (s : State) : Result :=
  let src := s.shiftSource x y
  .next (s.writeFlagThenV (shiftedOutLeft src) x (src <<< 1)).advance

/-- CXNN RND VX, NN (R101): one byte is consumed, whatever NN is. -/
def execRnd (x : Nibble) (nn : Byte) (s : State) : Result :=
  let draw := s.drawRng
  .next (draw.2.writeV x (draw.1 &&& nn)).advance

end Sys2Proof.Machine
end

