-- ==== Sys2Proof/Machine/Step.lean ====
section
/-! DEFINITION. `Step()`, the single-step operation of the Executor (spec/30_encoding.md R60). -/

namespace Sys2Proof.Machine

/-- Halted, nothing happens (spec/60_exceptions.md R143); else fetch, decode and execute exactly one instruction, or the
unknown opcode (R60, R68). -/
def step (s : State) : Host.Outcome State Fault Refusal :=
  if s.halted then .next s
  else
    match decode s.fetchWord with
    | .ok i => exec i s
    | .error e => execUnknown e s

/-- `s` with the instruction whose bits are `w`, numbered as spec/opcode_table.json numbers them, stored at PC, and
running. Every instruction is one 16-bit word (R61); bits above `nbits` are 0. -/
def State.withFetchWord (s : State) (nbits w : Nat) : State := s.placeWord (BitVec.ofNat 16 (w % 2 ^ nbits))

end Sys2Proof.Machine
end

