-- ==== Sys2Proof/Machine/HostOps.lean ====
section
/-! DEFINITION. The operations of the block (spec/00_scope.md R7) other than `Step`, their outputs, and a run of any
interleaving of them. -/

namespace Sys2Proof.Machine

/-! ### Outputs of `Step` -/

/-- What a `Step` makes available to the host (spec/60_exceptions.md R141): a fatal fault, or the recoverable event. -/
inductive Report where
  | stackOverflow (pc : Word) (w : Word)
  | stackUnderflow (pc : Word) (w : Word)
  | unknownOpcode (w : Word) (pc : Word)
deriving DecidableEq, Repr

/-- The fault report that goes with a status; `pc` and `w` are those of the faulting instruction (R142). -/
def faultReport (code : Status) (pc w : Word) : Option Report :=
  match code with
  | .running => none
  | .stackOverflow => some (.stackOverflow pc w)
  | .stackUnderflow => some (.stackUnderflow pc w)

/-- The report of a `Step` in state `s`: of a halted machine the same fault report as before (R143), of an unknown opcode
the event (R144), of any other instruction the fault it takes, if it takes one (R142). It changes no state. In the halted
state PC and memory are as the faulting `Step` left them, so the word at PC is the faulting instruction's (log entry 8). -/
def stepReport (s : State) : Option Report :=
  if s.halted then faultReport s.status s.pc s.fetchWord
  else
    match decode s.fetchWord with
    | .error (.unknownOpcode w) => some (.unknownOpcode w s.pc)
    | .ok i =>
      match exec i s with
      | .next t => faultReport t.status s.pc s.fetchWord
      | .fault _ => none
      | .refused _ => none

/-! ### The Timer Clock (spec/60_exceptions.md R150 to R152) -/

/-- One timer counts down to 0 and stops there. -/
def countDown (b : Byte) : Byte := if 0 < b.toNat then b - 1#8 else 0#8

/-- `Tick()`: both timers count down; it returns the tone request, ST above 0 after the decrement (R150, R151, C1). -/
def tick (s : State) : State × Bool :=
  let t := { s with dt := countDown s.dt, st := countDown s.st }
  (t, decide (0 < t.st.toNat))

/-! ### Keypad and display port -/

/-- `SetKey(index, pressed)`: an index outside 0..15 is rejected without mutation (R153). -/
def setKey (index : Int) (pressed : Bool) (s : State) : State :=
  if h : 0 ≤ index ∧ index ≤ 15 then { s with key := s.key.set index.toNat pressed (by omega) } else s

/-- `ClearDirty()` (R155). -/
def clearDirty (s : State) : State := { s with dirty := false }

/-! ### Reset and program load (spec/70_reset_and_hazards.md) -/

/-- `Reset(cfg)`, in any state: it requires a legal configuration and discards all state (R170, R171). -/
def hostReset (cfg : Config) : Result :=
  if cfg.legal then .next (State.resetWith cfg) else .refused .illegalConfig

/-- `LoadProgram(bytes)`: copies the image to 0x200 upward, fails whole when it is longer than 3584 bytes, and is defined
in the state just after `Reset` only (R173, D23). -/
def loadProgram (bytes : List Byte) (s : State) : Result :=
  if s ≠ State.resetWith s.cfg then .refused .loadOutsideReset
  else if 3584 < bytes.length then .fault .romTooLarge
  else .next (s.memWriteBlock 0x200 bytes)

/-! ### Any operation, and any interleaving of them -/

/-- The operations the host invokes one at a time (spec/00_scope.md R7). -/
inductive HostOp where
  | reset (cfg : Config)
  | loadProgram (bytes : List Byte)
  | step
  | tick
  | setKey (index : Int) (pressed : Bool)
  | clearDirty
deriving DecidableEq, Repr

/-- One operation, atomic on the whole machine state (R7, spec/20_memory.md R49). -/
def perform (op : HostOp) (s : State) : Result :=
  match op with
  | .reset cfg => hostReset cfg
  | .loadProgram bytes => loadProgram bytes s
  | .step => step s
  | .tick => .next (tick s).1
  | .setKey index pressed => .next (setKey index pressed s)
  | .clearDirty => .next (clearDirty s)

/-- A schedule of operations in the order the host invokes them, ending at the first that does not answer a next state
(spec/20_memory.md R53, D27). DESIGN CHOICE: of the three ends of a run in spec/70_reset_and_hazards.md R176, which D31
leaves to the model, a run here ends by (a), when the host's list is used up. A fault (b) or a self-jump (c) ends no run:
what is left of the list is still performed. Log entry 18. -/
def runOps : List HostOp → State → Result
  | [], s => .next s
  | op :: rest, s =>
    match perform op s with
    | .next t => runOps rest t
    | .fault r => .fault r
    | .refused r => .refused r

end Sys2Proof.Machine
end

