-- ==== Sys2Proof/Safety.lean ====
section
/-! DEFINITION. What claims about the machine are stated in: a safe state, the reachable states, the invariant, the frame
of an instruction, and the cells a sprite covers. -/

namespace Sys2Proof.Machine

/-- A run is safe while no fault has been taken: "a halted state is not a normal end of a run" (spec/60_exceptions.md
R143). -/
def State.safe (s : State) : Prop := s.status = .running

/-- The states some interleaving of the block's operations reaches from a legal `Reset` (spec/10_state.md R32, R33). -/
inductive Reachable : State → Prop where
  | reset (cfg : Config) (legal : cfg.legal) : Reachable (State.resetWith cfg)
  | op (s t : State) (o : HostOp) (before : Reachable s) (answers : perform o s = .next t) : Reachable t

/-- What every reachable state keeps: PC and the stack entries stay below 4096 (R14, R23, R32), memory keeps its canonical
form, the configuration stays legal (spec/70_reset_and_hazards.md R170). SP <= 16 and the other bounds of R32 hold by the
types of the fields. -/
structure State.Inv (s : State) : Prop where
  pc_lt : s.pc.toNat < 4096
  stack_lt : ∀ k : Fin 16, s.stack[k].toNat < 4096
  mem_wf : Memory.wf s.cfg s.mem
  cfg_legal : s.cfg.legal

/-- The pieces of state. -/
inductive Part where
  | v | i | pc | sp | stack | dt | st | disp | dirty | key | status | mem | rngCount | cfg
deriving DecidableEq, Repr

/-- Is this piece of state the same in both states? Registers and memory are compared by what every read gives. -/
def SamePart (s t : State) : Part → Prop
  | .v => ∀ x, t.readV x = s.readV x
  | .i => t.i = s.i
  | .pc => t.pc = s.pc
  | .sp => t.sp = s.sp
  | .stack => t.stack = s.stack
  | .dt => t.dt = s.dt
  | .st => t.st = s.st
  | .disp => t.disp = s.disp
  | .dirty => t.dirty = s.dirty
  | .key => t.key = s.key
  | .status => t.status = s.status
  | .mem => ∀ a, t.memRead a = s.memRead a
  | .rngCount => t.rngCount = s.rngCount
  | .cfg => t.cfg = s.cfg

/-- The frame: every piece of state but the named ones is unchanged. -/
def OnlyChanges (parts : List Part) (s t : State) : Prop := ∀ p, p ∉ parts → SamePart s t p

/-- Every V register but the named ones is unchanged. -/
def KeepsVExcept (xs : List Nibble) (s t : State) : Prop := ∀ j, j ∉ xs → t.readV j = s.readV j

/-- PC moved on by `d` bytes, modulo 4096 (R14, R16). -/
def PcPlus (d : Nat) (s t : State) : Prop := t.pc.toNat = (s.pc.toNat + d) % 4096

/-- Does the instruction have a PC of its own in R16's table: the skips, the jumps, CALL, RET and wait-for-key. Every
other instruction advances PC by exactly 2. -/
def redirects : Instr → Bool
  | .ret | .jp _ | .call _ | .seImm _ _ | .sneImm _ _ | .seReg _ _ _ | .sneReg _ _ _ | .jpV0 _ => true
  | .skp _ | .sknp _ | .ldVxK _ => true
  | .cls | .ldImm _ _ | .addImm _ _ | .ldReg _ _ | .orReg _ _ | .andReg _ _ | .xorReg _ _ | .addReg _ _ => false
  | .subReg _ _ | .shrReg _ _ | .subnReg _ _ | .shlReg _ _ | .ldI _ | .rnd _ _ | .drw _ _ _ | .ldVxDt _ => false
  | .ldDtVx _ | .ldStVx _ | .addI _ | .ldF _ | .ldB _ | .storeRegs _ | .loadRegs _ => false

/-- The word decodes to the instruction, and the instruction answers a next state that satisfies `post`. -/
def Does (w : Word) (i : Instr) (s : State) (post : State → Prop) : Prop :=
  decode w = .ok i ∧ ∃ t, exec i s = .next t ∧ post t

/-- `S[cx][cy]` of the compositor's closed form (spec/43_display.md R121): some set bit `b[r][7 - c]` of the sprite of
DXYN lands on the cell after clipping or wrapping. -/
def SpriteCovers (s : State) (x y n : Nibble) (cx : Fin 64) (cy : Fin 32) : Prop :=
  ∃ r c : Nat, r < n.toNat ∧ c < 8 ∧ (s.memRead (s.i.toNat + r)).getLsbD (7 - c) = true ∧
    (if s.cfg.spriteWrap then
      ((s.readV x).toNat % 64 + c) % 64 = cx.val ∧ ((s.readV y).toNat % 32 + r) % 32 = cy.val
    else (s.readV x).toNat % 64 + c = cx.val ∧ (s.readV y).toNat % 32 + r = cy.val)

end Sys2Proof.Machine
end

