-- ==== Sys2Proof/Certificates/Slice0/Obligations.lean ====
section
/-! DEFINITION. The statements for the provers, from the numbered rules of spec/. A result statement says what the
instruction writes, the PC it leaves, and its frame: everything else is unchanged. The words of the instructions are
R66's, whose patterns the spec itself supplies from general knowledge (D2). Where a statement rests on a choice the spec
marks as its own (D<n>) or on a log entry, its docstring names it. -/

open Sys2Proof Sys2Proof.Machine

/-! ### Encoding -/

/-- Decoding an encoded instruction gives it back, whatever its operands: no bit of an encoding is dropped (R62, R66;
the patterns are the spec's choice D2). -/
def Obligations.EncodeThenDecodeGivesInstr : Prop := ∀ i : Instr, decode (encode i) = .ok i

/-- A word that decodes is the word of its instruction: the fields R62 cuts a word into are the whole word
(the spec's choice D2). -/
def Obligations.DecodeThenEncodeGivesWord : Prop := ∀ (w : Word) (i : Instr), decode w = .ok i → encode i = w

/-- R65, R66 (with the spec's choices D2, D3, D4): a word decodes to an instruction of row k exactly when `(w & mask)
== match` for that row, so no word matches two rows; a word that matches no row is the unknown opcode. -/
def Obligations.DecodeSelectsTheMatchingRow : Prop :=
  ∀ w : Word,
    (∀ k : Fin 34, matchesRow w k = true ↔ ∃ i, decode w = .ok i ∧ i.row = k) ∧
    ((∀ k : Fin 34, matchesRow w k = false) ↔ decode w = .error (.unknownOpcode w))

/-- R69's table of the unknown words, group by group (without its counts); the spec derives it from R66 (D2, D3, D4). -/
def Obligations.UnknownWordsOfEachGroup : Prop :=
  ∀ w : Word, decode w = .error (.unknownOpcode w) ↔
    (w.toNat / 4096 = 0x0 ∧ w.toNat ≠ 0x00E0 ∧ w.toNat ≠ 0x00EE) ∨
    (w.toNat / 4096 = 0x8 ∧ w.toNat % 16 ∈ [0x8, 0x9, 0xA, 0xB, 0xC, 0xD, 0xF]) ∨
    (w.toNat / 4096 = 0xE ∧ w.toNat % 256 ∉ [0x9E, 0xA1]) ∨
    (w.toNat / 4096 = 0xF ∧ w.toNat % 256 ∉ [0x07, 0x0A, 0x15, 0x18, 0x1E, 0x29, 0x33, 0x55, 0x65])

/-- Words written out from the spec's encodings, at least one a family (spec/95_test_vectors.md section 2). -/
def Obligations.WrittenOutWordsDecode : Prop :=
  decode 0x00E0#16 = .ok .cls ∧ decode 0x00EE#16 = .ok .ret ∧ decode 0x2ABC#16 = .ok (.call 0xABC#12) ∧
  decode 0x332A#16 = .ok (.seImm 0x3#4 0x2A#8) ∧ decode 0x9AB7#16 = .ok (.sneReg 0xA#4 0xB#4 0x7#4) ∧
  decode 0x8124#16 = .ok (.addReg 0x1#4 0x2#4) ∧ decode 0x812E#16 = .ok (.shlReg 0x1#4 0x2#4) ∧
  decode 0xC30F#16 = .ok (.rnd 0x3#4 0x0F#8) ∧ decode 0xD12A#16 = .ok (.drw 0x1#4 0x2#4 0xA#4) ∧
  decode 0xE59E#16 = .ok (.skp 0x5#4) ∧ decode 0xF20A#16 = .ok (.ldVxK 0x2#4) ∧
  decode 0xFF65#16 = .ok (.loadRegs 0xF#4) ∧ decode 0x812F#16 = .error (.unknownOpcode 0x812F#16)

/-! ### The step -/

/-- R60: running, `Step` runs exactly the instruction the word at PC decodes to; nothing is done around it. -/
def Obligations.StepRunsTheDecodedInstruction : Prop :=
  ∀ (s : State) (i : Instr), s.status = .running → decode s.fetchWord = .ok i → step s = exec i s

/-- R43: the byte at PC is the high byte, the byte at PC + 1 modulo 4096 the low byte. -/
def Obligations.FetchIsBigEndian : Prop :=
  ∀ s : State, s.fetchWord.toNat =
    (s.memRead s.pc.toNat).toNat * 256 + (s.memRead ((s.pc.toNat + 1) % 4096)).toNat

/-- R68, R144: the unknown opcode advances PC by 2, emits its event and changes nothing else. That the diagnostic is an
event with that word and PC is the spec's choice D18; that it stands in `stepReport`, and the word in no constructor, is
log entries 12 and 13. -/
def Obligations.UnknownOpcodeIsSkipped : Prop :=
  ∀ (s : State) (w : Word), s.status = .running → decode s.fetchWord = .error (.unknownOpcode w) →
    stepReport s = some (.unknownOpcode w s.pc) ∧ w = s.fetchWord ∧
    ∃ t, step s = .next t ∧ PcPlus 2 s t ∧ OnlyChanges [.pc] s t

/-- R143 (the spec's choice D16): a halted `Step` changes nothing and gives a fault report with the PC it stands at and
the word there (log entry 8). -/
def Obligations.HaltedStepDoesNothing : Prop :=
  ∀ s : State, s.status ≠ .running →
    step s = .next s ∧
    (s.status = .stackOverflow → stepReport s = some (.stackOverflow s.pc s.fetchWord)) ∧
    (s.status = .stackUnderflow → stepReport s = some (.stackUnderflow s.pc s.fetchWord))

/-- R60, R158: `Step` always returns, in every state, and so does every instruction: no operand and no address makes one
stop. That a fault answers a next state is log entry 12. -/
def Obligations.EveryStepAnswersNext : Prop :=
  (∀ s : State, ∃ t, step s = .next t) ∧ ∀ (i : Instr) (s : State), ∃ t, exec i s = .next t

/-- R141, R142, R144 (the spec's choices D16, D18): what a running `Step` reports. Only 2NNN on a full stack, 00EE on
an empty one and the unknown opcode report anything. -/
def Obligations.StepReportsOnlyTheThreeConditions : Prop :=
  ∀ s : State, s.status = .running →
    (∀ w, decode s.fetchWord = .error (.unknownOpcode w) → stepReport s = some (.unknownOpcode w s.pc)) ∧
    (∀ nnn, decode s.fetchWord = .ok (.call nnn) →
      stepReport s = if s.sp.val = 16 then some (.stackOverflow s.pc s.fetchWord) else none) ∧
    (decode s.fetchWord = .ok .ret →
      stepReport s = if s.sp.val = 0 then some (.stackUnderflow s.pc s.fetchWord) else none) ∧
    (∀ i, decode s.fetchWord = .ok i → (∀ nnn, i ≠ .call nnn) → i ≠ .ret → stepReport s = none)

/-- R143 (the spec's choice D16; the word in the report is log entry 8): the `Step` after a fault returns the same fault
report. -/
def Obligations.FaultReportRepeats : Prop :=
  ∀ s t : State, s.status = .running → step s = .next t → t.status ≠ .running → stepReport t = stepReport s

/-! ### Reset and program load -/

/-- R30: what `Reset(cfg)` leaves, for every legal configuration, the one of `State.reset` among them. That dirty is 0
is the spec's choice D22, and `status` is the spec's own register (D16). -/
def Obligations.ResetLeavesTheStatedValues : Prop :=
  (∃ cfg : Config, cfg.legal ∧ State.reset = State.resetWith cfg) ∧
  ∀ cfg : Config, cfg.legal → ∃ t, perform (.reset cfg) State.reset = .next t ∧ t = State.resetWith cfg ∧
    (∀ x, t.readV x = 0x00#8) ∧ t.i = 0x0000#16 ∧ t.pc = 0x200#16 ∧ t.sp.val = 0 ∧
    (∀ k : Fin 16, t.stack[k] = 0x0000#16) ∧ t.dt = 0x00#8 ∧ t.st = 0x00#8 ∧
    (∀ cx cy, pixel t.disp cx cy = false) ∧ (∀ k, t.keyDown k = false) ∧ t.dirty = false ∧ t.status = .running ∧
    (∀ k : Fin 80, t.memRead (cfg.fontBase.toNat + k.val) = cfg.fontData[k]) ∧
    (∀ a, a < 4096 → (a < cfg.fontBase.toNat ∨ cfg.fontBase.toNat + 80 ≤ a) → t.memRead a = 0x00#8) ∧
    t.rngCount = 0 ∧ t.cfg = cfg

/-- R170, R171: `Reset` may be invoked in any state and discards all of it; it requires FONT_BASE + 80 <= 0x200. That
the model refuses an illegal configuration is the spec's treatment U18 (log entry 9). -/
def Obligations.ResetWorksInAnyState : Prop :=
  ∀ (cfg : Config) (s : State),
    (cfg.fontBase.toNat + 80 ≤ 0x200 → perform (.reset cfg) s = .next (State.resetWith cfg)) ∧
    (0x200 < cfg.fontBase.toNat + 80 → perform (.reset cfg) s = .refused .illegalConfig)

/-- R173: `LoadProgram` copies the image to 0x200 upward, fails whole above 3584 bytes, and is defined in the state just
after `Reset` only (D23, log entry 7). -/
def Obligations.LoadProgramCopiesOrStops : Prop :=
  ∀ bytes : List Byte,
    (∀ cfg : Config, bytes.length ≤ 3584 →
      ∃ t, perform (.loadProgram bytes) (State.resetWith cfg) = .next t ∧
        (∀ (j : Nat) (h : j < bytes.length), t.memRead (0x200 + j) = bytes[j]) ∧
        (∀ a, (∀ j, j < bytes.length → a % 4096 ≠ 0x200 + j) → t.memRead a = (State.resetWith cfg).memRead a) ∧
        OnlyChanges [.mem] (State.resetWith cfg) t) ∧
    (∀ cfg : Config, 3584 < bytes.length →
      perform (.loadProgram bytes) (State.resetWith cfg) = .fault .romTooLarge) ∧
    (∀ s : State, s ≠ State.resetWith s.cfg → perform (.loadProgram bytes) s = .refused .loadOutsideReset)

/-! ### Invariants -/

/-- The invariant holds right after `Reset`, with every legal configuration. -/
def Obligations.InvHoldsAtReset : Prop := State.reset.Inv ∧ ∀ cfg : Config, cfg.legal → (State.resetWith cfg).Inv

/-- Every `Step` keeps the invariant: PC and the stack entries below 4096 (R14, R23; the spec's choice D6), memory in
canonical form, the configuration legal. -/
def Obligations.StepKeepsInv : Prop := ∀ s t : State, s.Inv → step s = .next t → t.Inv

/-- R32: the bounds every state reachable by the operations keeps, and the model's own invariant. -/
def Obligations.ReachableStatesKeepBounds : Prop :=
  ∀ s : State, Reachable s →
    s.pc.toNat ≤ 4095 ∧ s.sp.val ≤ 16 ∧ (∀ k : Fin 16, s.stack[k].toNat ≤ 4095) ∧
    (s.status = .running ∨ s.status = .stackOverflow ∨ s.status = .stackUnderflow) ∧
    s.dt.toNat ≤ 255 ∧ s.st.toNat ≤ 255 ∧ (∀ x, (s.readV x).toNat ≤ 255) ∧ s.i.toNat ≤ 65535 ∧ s.Inv

/-! ### The timer unit, the keypad, the dirty flag, memory -/

/-- R150, R151: one tick decrements each timer that is above 0 and touches nothing else; the tone bit is ST above 0
after the decrement (the spec's choices C1, D21). -/
def Obligations.TickCountsDown : Prop :=
  ∀ s : State, (tick s).1.dt.toNat = s.dt.toNat - 1 ∧ (tick s).1.st.toNat = s.st.toNat - 1 ∧
    OnlyChanges [.dt, .st] s (tick s).1 ∧ ((tick s).2 = true ↔ 0 < (tick s).1.st.toNat) ∧
    ((tick s).2 = true ↔ 1 < s.st.toNat) ∧ perform .tick s = .next (tick s).1

/-- R152: after n ticks with no write between them, DT is max(DT0 - n, 0), and likewise ST; R186: of those ticks exactly
the k-th with k + 1 below ST0 (counted from 0) request a tone. That the tone bit is
ST above 0 after the decrement is the spec's choices C1, D21 (R151). -/
def Obligations.TicksDecayTheTimers : Prop :=
  ∀ (n : Nat) (s : State), ∃ t, runOps (List.replicate n .tick) s = .next t ∧
    t.dt.toNat = s.dt.toNat - n ∧ t.st.toNat = s.st.toNat - n ∧ OnlyChanges [.dt, .st] s t ∧
    ((tick t).2 = true ↔ n + 1 < s.st.toNat)

/-- R153: `SetKey` writes one key level, and an index outside 0..15 changes nothing and is no fault (the spec's choice
D30). -/
def Obligations.SetKeyWritesOneKey : Prop :=
  ∀ (s : State) (index : Int) (pressed : Bool), ∃ t, perform (.setKey index pressed) s = .next t ∧
    (∀ k : Nibble, t.keyDown k = if (k.toNat : Int) = index then pressed else s.keyDown k) ∧
    (index < 0 ∨ 15 < index → t = s) ∧ OnlyChanges [.key] s t

/-- R155: `ClearDirty` writes 0 to the dirty flag and nothing else. -/
def Obligations.ClearDirtyClearsOnlyDirty : Prop :=
  ∀ s : State, ∃ t, perform .clearDirty s = .next t ∧ t.dirty = false ∧ OnlyChanges [.dirty] s t

/-- R40, R41: a read returns the byte last written to the index modulo 4096; a write changes no other byte and never
fails; every index is writable. -/
def Obligations.MemoryReadsWhatWasWritten : Prop :=
  ∀ (s : State) (a : Nat) (b : Byte),
    (∀ a', a' % 4096 = a % 4096 → (s.memWrite a b).memRead a' = b) ∧
    (∀ a', a' % 4096 ≠ a % 4096 → (s.memWrite a b).memRead a' = s.memRead a') ∧
    s.memRead (a % 4096) = s.memRead a ∧ OnlyChanges [.mem] s (s.memWrite a b)

/-! ### Control transfer -/

/-- R80, R87: the jumps write PC and nothing else; a jump to its own address leaves the state exactly as it was. -/
def Obligations.JumpsSetPc : Prop :=
  ∀ (s : State) (nnn : Addr),
    Does (wordA 0x1#4 nnn) (.jp nnn) s (fun t => t.pc.toNat = nnn.toNat ∧ OnlyChanges [.pc] s t) ∧
    Does (wordA 0xB#4 nnn) (.jpV0 nnn) s (fun t =>
      t.pc.toNat = (nnn.toNat + (s.readV 0#4).toNat) % 4096 ∧ OnlyChanges [.pc] s t) ∧
    (s.pc.toNat = nnn.toNat → decode s.fetchWord = .ok (.jp nnn) → step s = .next s)

/-- R81, R142: CALL pushes its own address, or with SP = 16 faults and changes `status` alone. That the fault writes the
sticky `status` and nothing else is the spec's choice D16, that it is a next state is log entry 12. -/
def Obligations.CallPushesItsOwnAddress : Prop :=
  ∀ (s : State) (nnn : Addr),
    (s.sp.val < 16 → Does (wordA 0x2#4 nnn) (.call nnn) s (fun t =>
      (∀ k : Fin 16, t.stack[k] = if k.val = s.sp.val then s.pc else s.stack[k]) ∧
      t.sp.val = s.sp.val + 1 ∧ t.pc.toNat = nnn.toNat ∧ OnlyChanges [.stack, .sp, .pc] s t)) ∧
    (s.sp.val = 16 → Does (wordA 0x2#4 nnn) (.call nnn) s (fun t =>
      t.status = .stackOverflow ∧ OnlyChanges [.status] s t))

/-- R82, R142: RET pops the address and adds 2, leaving the entry in place, or with SP = 0 faults and changes `status`
alone. That the fault writes the sticky `status` and nothing else is the spec's choice D16, that it is a next state is
log entry 12. -/
def Obligations.RetReturnsPastTheCall : Prop :=
  ∀ s : State,
    (∀ k : Fin 16, s.sp.val = k.val + 1 → Does 0x00EE#16 .ret s (fun t =>
      t.sp.val = k.val ∧ t.pc.toNat = (s.stack[k].toNat + 2) % 4096 ∧ OnlyChanges [.sp, .pc] s t)) ∧
    (s.sp.val = 0 → Does 0x00EE#16 .ret s (fun t => t.status = .stackUnderflow ∧ OnlyChanges [.status] s t))

/-- R82's property from the source: CALL then RET restores PC to the address after the CALL and leaves SP unchanged. -/
def Obligations.CallThenRetComesBack : Prop :=
  ∀ (s : State) (nnn : Addr), s.sp.val < 16 →
    ∃ t u, exec (.call nnn) s = .next t ∧ exec .ret t = .next u ∧
      PcPlus 2 s u ∧ u.sp = s.sp ∧ OnlyChanges [.stack, .pc] s u

/-- R83, R84: the immediate skips pass over two bytes when their condition holds, and write nothing but PC. -/
def Obligations.ImmediateSkips : Prop :=
  ∀ (s : State) (x : Nibble) (nn : Byte),
    Does (wordXI 0x3#4 x nn) (.seImm x nn) s (fun t =>
      PcPlus (if s.readV x = nn then 4 else 2) s t ∧ OnlyChanges [.pc] s t) ∧
    Does (wordXI 0x4#4 x nn) (.sneImm x nn) s (fun t =>
      PcPlus (if s.readV x ≠ nn then 4 else 2) s t ∧ OnlyChanges [.pc] s t)

/-- R85, R86: the register skips, for every value of the low nibble: that it is ignored is the spec's choice D4 (R65). -/
def Obligations.RegisterSkips : Prop :=
  ∀ (s : State) (x y z : Nibble),
    Does (wordXY 0x5#4 x y z) (.seReg x y z) s (fun t =>
      PcPlus (if s.readV x = s.readV y then 4 else 2) s t ∧ OnlyChanges [.pc] s t) ∧
    Does (wordXY 0x9#4 x y z) (.sneReg x y z) s (fun t =>
      PcPlus (if s.readV x ≠ s.readV y then 4 else 2) s t ∧ OnlyChanges [.pc] s t)

/-! ### Register load, ALU, random -/

/-- R90, R91, R92: load immediate, add immediate (wrapping, no flag) and register load write VX and PC only. That
the register load leaves VF alone is the spec's choice D14. -/
def Obligations.LoadsAndAddImmediate : Prop :=
  ∀ (s : State) (x y : Nibble) (nn : Byte),
    Does (wordXI 0x6#4 x nn) (.ldImm x nn) s (fun t =>
      t.readV x = nn ∧ KeepsVExcept [x] s t ∧ PcPlus 2 s t ∧ OnlyChanges [.v, .pc] s t) ∧
    Does (wordXI 0x7#4 x nn) (.addImm x nn) s (fun t =>
      (t.readV x).toNat = ((s.readV x).toNat + nn.toNat) % 256 ∧ KeepsVExcept [x] s t ∧ PcPlus 2 s t ∧
      OnlyChanges [.v, .pc] s t) ∧
    Does (wordXY 0x8#4 x y 0x0#4) (.ldReg x y) s (fun t =>
      t.readV x = s.readV y ∧ KeepsVExcept [x] s t ∧ PcPlus 2 s t ∧ OnlyChanges [.v, .pc] s t)

/-- R93, R94, R100: OR, AND and XOR, bit by bit; that VF is not written as a flag is the spec's choice D14. -/
def Obligations.BitwiseOperations : Prop :=
  ∀ (s : State) (x y : Nibble),
    Does (wordXY 0x8#4 x y 0x1#4) (.orReg x y) s (fun t =>
      (∀ b, (t.readV x).getLsbD b = ((s.readV x).getLsbD b || (s.readV y).getLsbD b)) ∧
      KeepsVExcept [x] s t ∧ PcPlus 2 s t ∧ OnlyChanges [.v, .pc] s t) ∧
    Does (wordXY 0x8#4 x y 0x2#4) (.andReg x y) s (fun t =>
      (∀ b, (t.readV x).getLsbD b = ((s.readV x).getLsbD b && (s.readV y).getLsbD b)) ∧
      KeepsVExcept [x] s t ∧ PcPlus 2 s t ∧ OnlyChanges [.v, .pc] s t) ∧
    Does (wordXY 0x8#4 x y 0x3#4) (.xorReg x y) s (fun t =>
      (∀ b, (t.readV x).getLsbD b = ((s.readV x).getLsbD b ^^ (s.readV y).getLsbD b)) ∧
      KeepsVExcept [x] s t ∧ PcPlus 2 s t ∧ OnlyChanges [.v, .pc] s t)

/-- R95: the sum goes to VX and the carry to VF; with X = F the sum is what VF holds, and the operands are read before
the flag is written (the spec's choice D5, R64). -/
def Obligations.AddRegisterWithCarry : Prop :=
  ∀ (s : State) (x y : Nibble),
    Does (wordXY 0x8#4 x y 0x4#4) (.addReg x y) s (fun t =>
      (t.readV x).toNat = ((s.readV x).toNat + (s.readV y).toNat) % 256 ∧
      (x ≠ regF → t.readV regF = if (s.readV x).toNat + (s.readV y).toNat > 255 then 1#8 else 0#8) ∧
      KeepsVExcept [x, regF] s t ∧ PcPlus 2 s t ∧ OnlyChanges [.v, .pc] s t)

/-- R96, R98: the difference goes to VX and the negated borrow to VF (1 for equal operands); with X = F the difference
is what VF holds, and the operands are read before the flag is written (the spec's choice D5, R64). -/
def Obligations.SubtractsWithBorrow : Prop :=
  ∀ (s : State) (x y : Nibble),
    Does (wordXY 0x8#4 x y 0x5#4) (.subReg x y) s (fun t =>
      (t.readV x).toNat = ((s.readV x).toNat + 256 - (s.readV y).toNat) % 256 ∧
      (x ≠ regF → t.readV regF = if (s.readV x).toNat ≥ (s.readV y).toNat then 1#8 else 0#8) ∧
      KeepsVExcept [x, regF] s t ∧ PcPlus 2 s t ∧ OnlyChanges [.v, .pc] s t) ∧
    Does (wordXY 0x8#4 x y 0x7#4) (.subnReg x y) s (fun t =>
      (t.readV x).toNat = ((s.readV y).toNat + 256 - (s.readV x).toNat) % 256 ∧
      (x ≠ regF → t.readV regF = if (s.readV y).toNat ≥ (s.readV x).toNat then 1#8 else 0#8) ∧
      KeepsVExcept [x, regF] s t ∧ PcPlus 2 s t ∧ OnlyChanges [.v, .pc] s t)

/-- R97, R99: the shifts, for both values of SHIFT_SRC_VY (the spec's parameter D8); with X = F the result is what VF
holds (D5). -/
def Obligations.ShiftsByOne : Prop :=
  ∀ (s : State) (x y : Nibble) (src : Byte), src = (if s.cfg.shiftSrcVy = true then s.readV y else s.readV x) →
    Does (wordXY 0x8#4 x y 0x6#4) (.shrReg x y) s (fun t =>
      (t.readV x).toNat = src.toNat / 2 ∧
      (x ≠ regF → (t.readV regF).toNat = src.toNat % 2) ∧
      KeepsVExcept [x, regF] s t ∧ PcPlus 2 s t ∧ OnlyChanges [.v, .pc] s t) ∧
    Does (wordXY 0x8#4 x y 0xE#4) (.shlReg x y) s (fun t =>
      (t.readV x).toNat = src.toNat * 2 % 256 ∧
      (x ≠ regF → (t.readV regF).toNat = src.toNat / 128) ∧
      KeepsVExcept [x, regF] s t ∧ PcPlus 2 s t ∧ OnlyChanges [.v, .pc] s t)

/-- R101, R29: the k-th CXNN consumes byte k of the stream, whatever NN is, and VX is that byte AND NN. The byte is a
free value (D19, log entry 5): the statement holds for every stream. -/
def Obligations.RandomConsumesOneByte : Prop :=
  ∀ (s : State) (x : Nibble) (nn : Byte),
    Does (wordXI 0xC#4 x nn) (.rnd x nn) s (fun t =>
      t.readV x = Config.rngByte s.cfg.rngSource s.rngCount &&& nn ∧ t.rngCount = s.rngCount + 1 ∧
      KeepsVExcept [x] s t ∧ PcPlus 2 s t ∧ OnlyChanges [.v, .pc, .rngCount] s t)

/-! ### Index register and memory -/

/-- R110, R111: loading I and adding to it modulo 65536; VF is not written even when I passes 0x0FFF or 0xFFFF. -/
def Obligations.LoadAndAddIndexRegister : Prop :=
  ∀ (s : State) (x : Nibble) (nnn : Addr),
    Does (wordA 0xA#4 nnn) (.ldI nnn) s (fun t =>
      t.i.toNat = nnn.toNat ∧ PcPlus 2 s t ∧ OnlyChanges [.i, .pc] s t) ∧
    Does (wordXI 0xF#4 x 0x1E#8) (.addI x) s (fun t =>
      t.i.toNat = (s.i.toNat + (s.readV x).toNat) % 65536 ∧ PcPlus 2 s t ∧ OnlyChanges [.i, .pc] s t)

/-- R112: I points at the glyph of the digit, FONT_BASE + 5 * d; that the digit is the low nibble of V[X] is the spec's
choice D12. The statement holds for every FONT_BASE (D10). -/
def Obligations.GlyphAddress : Prop :=
  ∀ (s : State) (x : Nibble),
    Does (wordXI 0xF#4 x 0x29#8) (.ldF x) s (fun t =>
      t.i.toNat = s.cfg.fontBase.toNat + 5 * ((s.readV x).toNat % 16) ∧ PcPlus 2 s t ∧ OnlyChanges [.i, .pc] s t)

/-- R113: hundreds, tens and ones at I, I + 1, I + 2 modulo 4096; no other byte changes. That I is unchanged (R116) is
the spec's choice D13, that a store into the font happens (R48) its choice D15. -/
def Obligations.StoreBcdDigits : Prop :=
  ∀ (s : State) (x : Nibble),
    Does (wordXI 0xF#4 x 0x33#8) (.ldB x) s (fun t =>
      (t.memRead s.i.toNat).toNat = (s.readV x).toNat / 100 ∧
      (t.memRead (s.i.toNat + 1)).toNat = (s.readV x).toNat / 10 % 10 ∧
      (t.memRead (s.i.toNat + 2)).toNat = (s.readV x).toNat % 10 ∧
      (∀ a, (∀ k, k < 3 → a % 4096 ≠ (s.i.toNat + k) % 4096) → t.memRead a = s.memRead a) ∧
      PcPlus 2 s t ∧ OnlyChanges [.mem, .pc] s t)

/-- R114: V0 to VX go to I, ..., I + X modulo 4096; no other byte changes. That I is unchanged (R116) is the spec's
choice D13, that a store into the font happens (R48) its choice D15. -/
def Obligations.StoreRegisterBlock : Prop :=
  ∀ (s : State) (x : Nibble),
    Does (wordXI 0xF#4 x 0x55#8) (.storeRegs x) s (fun t =>
      (∀ k : Nibble, k.toNat ≤ x.toNat → t.memRead (s.i.toNat + k.toNat) = s.readV k) ∧
      (∀ a, (∀ k, k ≤ x.toNat → a % 4096 ≠ (s.i.toNat + k) % 4096) → t.memRead a = s.memRead a) ∧
      PcPlus 2 s t ∧ OnlyChanges [.mem, .pc] s t)

/-- R115: V0 to VX come from I, ..., I + X modulo 4096; registers above VX are unchanged. That I is unchanged (R116) is
the spec's choice D13. -/
def Obligations.LoadRegisterBlock : Prop :=
  ∀ (s : State) (x : Nibble),
    Does (wordXI 0xF#4 x 0x65#8) (.loadRegs x) s (fun t =>
      (∀ k : Nibble, t.readV k = if k.toNat ≤ x.toNat then s.memRead (s.i.toNat + k.toNat) else s.readV k) ∧
      PcPlus 2 s t ∧ OnlyChanges [.v, .pc] s t)

/-! ### Display -/

/-- R120: every cell off, dirty set, VF not written. -/
def Obligations.ClearDisplay : Prop :=
  ∀ s : State, Does 0x00E0#16 .cls s (fun t =>
    (∀ cx cy, pixel t.disp cx cy = false) ∧ t.dirty = true ∧ PcPlus 2 s t ∧ OnlyChanges [.disp, .dirty, .pc] s t)

/-- R121: the compositor's loop is its closed form, which the spec derives (wrapping is its choice D9, the geometry
D24). Every cell is XORed with `SpriteCovers`, clipped or wrapped as SPRITE_WRAP says; VF is 1 exactly when a covered
cell was on; dirty is always set. -/
def Obligations.DrawIsItsClosedForm : Prop :=
  ∀ (s : State) (x y n : Nibble),
    Does (wordXY 0xD#4 x y n) (.drw x y n) s (fun t =>
      (∀ cx cy, SpriteCovers s x y n cx cy → pixel t.disp cx cy = !pixel s.disp cx cy) ∧
      (∀ cx cy, ¬ SpriteCovers s x y n cx cy → pixel t.disp cx cy = pixel s.disp cx cy) ∧
      ((∃ cx cy, pixel s.disp cx cy = true ∧ SpriteCovers s x y n cx cy) → t.readV regF = 1#8) ∧
      ((¬ ∃ cx cy, pixel s.disp cx cy = true ∧ SpriteCovers s x y n cx cy) → t.readV regF = 0#8) ∧
      t.dirty = true ∧ KeepsVExcept [regF] s t ∧ PcPlus 2 s t ∧ OnlyChanges [.v, .disp, .dirty, .pc] s t)

/-- R122, which the spec derives from R121: drawing the identical sprite twice at the same origin gives the display
back; on a clear background VF is 0 on the first draw, and 1 on the second exactly when the sprite has a visible set
pixel. -/
def Obligations.DrawTwiceRestores : Prop :=
  ∀ (s : State) (x y n : Nibble), ∃ t u, exec (.drw x y n) s = .next t ∧ exec (.drw x y n) t = .next u ∧
    (t.readV x = s.readV x → t.readV y = s.readV y →
      u.disp = s.disp ∧
      (s.disp = blankDisplay → t.readV regF = 0#8 ∧
        ((∃ cx cy, SpriteCovers s x y n cx cy) → u.readV regF = 1#8) ∧
        ((¬ ∃ cx cy, SpriteCovers s x y n cx cy) → u.readV regF = 0#8)))

/-! ### Keypad and timers -/

/-- R130, R131: the key skips look at key V[X] mod 16 and write nothing but PC: the press is not consumed. -/
def Obligations.KeySkips : Prop :=
  ∀ (s : State) (x : Nibble) (k : Nibble), k.toNat = (s.readV x).toNat % 16 →
    Does (wordXI 0xE#4 x 0x9E#8) (.skp x) s (fun t =>
      PcPlus (if s.keyDown k = true then 4 else 2) s t ∧ OnlyChanges [.pc] s t) ∧
    Does (wordXI 0xE#4 x 0xA1#8) (.sknp x) s (fun t =>
      PcPlus (if s.keyDown k = false then 4 else 2) s t ∧ OnlyChanges [.pc] s t)

/-- R132, R133, R134: the moves between a register and the timers. -/
def Obligations.TimerMoves : Prop :=
  ∀ (s : State) (x : Nibble),
    Does (wordXI 0xF#4 x 0x07#8) (.ldVxDt x) s (fun t =>
      t.readV x = s.dt ∧ KeepsVExcept [x] s t ∧ PcPlus 2 s t ∧ OnlyChanges [.v, .pc] s t) ∧
    Does (wordXI 0xF#4 x 0x15#8) (.ldDtVx x) s (fun t =>
      t.dt = s.readV x ∧ PcPlus 2 s t ∧ OnlyChanges [.dt, .pc] s t) ∧
    Does (wordXI 0xF#4 x 0x18#8) (.ldStVx x) s (fun t =>
      t.st = s.readV x ∧ PcPlus 2 s t ∧ OnlyChanges [.st, .pc] s t)

/-- R135 (level-sensitive: the spec's choice D29): wait-for-key takes the lowest pressed key, or leaves the whole
state as it was. -/
def Obligations.WaitForKeyTakesTheLowest : Prop :=
  ∀ (s : State) (x : Nibble),
    (∀ k : Nibble, s.keyDown k = true → (∀ j : Nibble, j.toNat < k.toNat → s.keyDown j = false) →
      Does (wordXI 0xF#4 x 0x0A#8) (.ldVxK x) s (fun t =>
        (t.readV x).toNat = k.toNat ∧ KeepsVExcept [x] s t ∧ PcPlus 2 s t ∧ OnlyChanges [.v, .pc] s t)) ∧
    ((∀ k : Nibble, s.keyDown k = false) → Does (wordXI 0xF#4 x 0x0A#8) (.ldVxK x) s (fun t => t = s))

/-! ### Whole-machine rules of the prose -/

/-- R46, R53: no `Step` but one that runs FX33 or FX55 changes a byte of memory. -/
def Obligations.OnlyStoresWriteMemory : Prop :=
  ∀ s t : State, step s = .next t →
    (∀ a, t.memRead a = s.memRead a) ∨
    ∃ x, decode s.fetchWord = .ok (.ldB x) ∨ decode s.fetchWord = .ok (.storeRegs x)

/-- R22, R24: a `Step` changes the display or the dirty flag only by running 00E0 or DXYN, and never clears the flag. -/
def Obligations.OnlyClsAndDrwTouchTheDisplay : Prop :=
  ∀ s t : State, step s = .next t →
    (t.disp = s.disp ∧ t.dirty = s.dirty) ∨
    (t.dirty = true ∧
      (decode s.fetchWord = .ok .cls ∨ ∃ x y n, decode s.fetchWord = .ok (.drw x y n)))

/-- R19, R23, R25: a `Step` changes SP, a stack entry or `status` only by running 2NNN or 00EE, and `status` only from
RUNNING, by the fault. That a fault writes `status` alone (R142) is the spec's choice D16, that it is a next state is log
entry 12. -/
def Obligations.OnlyCallAndRetTouchTheStack : Prop :=
  ∀ s t : State, step s = .next t →
    (t.sp = s.sp ∧ t.stack = s.stack ∧ t.status = s.status) ∨
    (s.status = .running ∧ t.status = .running ∧ (decode s.fetchWord = .ok .ret ∨
      ∃ nnn, decode s.fetchWord = .ok (.call nnn))) ∨
    (s.status = .running ∧ t = { s with status := .stackOverflow } ∧ s.sp.val = 16 ∧
      ∃ nnn, decode s.fetchWord = .ok (.call nnn)) ∨
    (s.status = .running ∧ t = { s with status := .stackUnderflow } ∧ s.sp.val = 0 ∧
      decode s.fetchWord = .ok .ret)

/-- R20, R21, R26, R31: no `Step` writes a key or the configuration, and none decrements a timer: DT and ST change
only by FX15 and FX18, to V[X]. -/
def Obligations.StepKeepsKeysAndTimers : Prop :=
  ∀ s t : State, step s = .next t →
    t.key = s.key ∧ t.cfg = s.cfg ∧
    (t.dt = s.dt ∨ ∃ x, decode s.fetchWord = .ok (.ldDtVx x) ∧ t.dt = s.readV x) ∧
    (t.st = s.st ∨ ∃ x, decode s.fetchWord = .ok (.ldStVx x) ∧ t.st = s.readV x)

/-- R17: the instructions that write VF as a side effect are exactly 8XY4 to 8XY7, 8XYE and DXYN; every other
instruction leaves VF unchanged unless it names VF as its destination. That 8XY0 to 8XY3 do not reset VF is the spec's
choice D14, to which R17 points. -/
def Obligations.OnlyFlagInstructionsWriteVf : Prop :=
  ∀ s t : State, step s = .next t → t.readV regF ≠ s.readV regF →
    ∃ i, decode s.fetchWord = .ok i ∧
      ((∃ x y, i = .addReg x y ∨ i = .subReg x y ∨ i = .shrReg x y ∨ i = .subnReg x y ∨ i = .shlReg x y) ∨
       (∃ x y n, i = .drw x y n) ∨
       (∃ nn, i = .ldImm regF nn ∨ i = .addImm regF nn ∨ i = .rnd regF nn) ∨
       (∃ y, i = .ldReg regF y ∨ i = .orReg regF y ∨ i = .andReg regF y ∨ i = .xorReg regF y) ∨
       i = .ldVxDt regF ∨ i = .ldVxK regF ∨ i = .loadRegs regF)

/-- R29: CXNN consumes exactly one byte of the random stream and no other `Step` consumes any. The stream and its count of
consumed bytes are the spec's choice D19; that the count is a field of State is log entry 5. -/
def Obligations.OnlyRndConsumesRandomBytes : Prop :=
  ∀ s t : State, step s = .next t →
    (t.rngCount = s.rngCount ∧ (s.status = .running → ∀ x nn, decode s.fetchWord ≠ .ok (.rnd x nn))) ∨
    (t.rngCount = s.rngCount + 1 ∧ ∃ x nn, decode s.fetchWord = .ok (.rnd x nn)) ∨
    (s.status ≠ .running ∧ t = s)

/-- R16: every instruction outside R16's list of cases advances PC by exactly 2, and so does the unknown opcode. -/
def Obligations.PcAdvancesByTwo : Prop :=
  ∀ s t : State, s.status = .running → step s = .next t →
    (∀ i, decode s.fetchWord = .ok i → redirects i = false) → PcPlus 2 s t

/-- R116 (the spec's choice D13), R18: no instruction changes I except ANNN, FX1E and FX29, which change nothing else
but PC. -/
def Obligations.OnlyThreeInstructionsWriteI : Prop :=
  ∀ s t : State, step s = .next t →
    t.i = s.i ∨
    (OnlyChanges [.i, .pc] s t ∧
      ((∃ nnn, decode s.fetchWord = .ok (.ldI nnn)) ∨
       ∃ x, decode s.fetchWord = .ok (.addI x) ∨ decode s.fetchWord = .ok (.ldF x)))

/-- R18: bits 15..12 of I are never observable by a program. Two machines that differ only in those bits take the same
step, and differ only in them afterwards. -/
def Obligations.HighIndexBitsAreUnobservable : Prop :=
  ∀ (s t : State) (w : Word), w.toNat % 4096 = s.i.toNat % 4096 → step s = .next t →
    ∃ w' : Word, w'.toNat % 4096 = t.i.toNat % 4096 ∧ step { s with i := w } = .next { t with i := w' }

/-- R23: stack entries at or above SP are never read before being rewritten. Two machines that differ only in them take
the same step, and differ only in such entries afterwards. -/
def Obligations.DeadStackEntriesAreUnobservable : Prop :=
  ∀ (s t : State) (stk : Vector Word 16), (∀ k : Fin 16, k.val < s.sp.val → stk[k] = s.stack[k]) →
    step s = .next t →
    ∃ stk' : Vector Word 16, (∀ k : Fin 16, k.val < t.sp.val → stk'[k] = t.stack[k]) ∧
      step { s with stack := stk } = .next { t with stack := stk' }

/-- R21, R22: no instruction reads ST or the dirty flag. Two machines that differ only in them take the same step, and
differ only in them afterwards. -/
def Obligations.SoundTimerAndDirtyAreUnobservable : Prop :=
  ∀ (s t : State) (b : Byte) (d : Bool), step s = .next t →
    ∃ (b' : Byte) (d' : Bool), step { s with st := b, dirty := d } = .next { t with st := b', dirty := d' }

/-- R49, R150: `Tick` and `Step` commute unless the step reads or writes a timer. -/
def Obligations.TickCommutesWithStep : Prop :=
  ∀ s t : State,
    (∀ x, decode s.fetchWord ≠ .ok (.ldVxDt x) ∧ decode s.fetchWord ≠ .ok (.ldDtVx x) ∧
      decode s.fetchWord ≠ .ok (.ldStVx x)) →
    step s = .next t → step (tick s).1 = .next (tick t).1

/-- R51: a store is seen by the fetch of the very next instruction. -/
def Obligations.StoreIsSeenByTheNextFetch : Prop :=
  ∀ (s : State) (x : Nibble), 1 ≤ x.toNat → s.i.toNat % 4096 = (s.pc.toNat + 2) % 4096 →
    ∃ t, exec (.storeRegs x) s = .next t ∧
      t.fetchWord.toNat = (s.readV 0#4).toNat * 256 + (s.readV 1#4).toNat

/-- R143, R148: a fault is final. Whatever the host does short of `Reset`, a halted machine keeps everything but the
timers, the keys and the dirty flag. That the halted state is sticky is the spec's choice D16, that `Tick`, `SetKey` and
`ClearDirty` go on in it its choice D20; `LoadProgram` completes in no halted state by its choice D23 (log entry 7). -/
def Obligations.FaultIsFinal : Prop :=
  ∀ (ops : List HostOp) (s t : State), (∀ cfg, HostOp.reset cfg ∉ ops) → s.status ≠ .running →
    runOps ops s = .next t → OnlyChanges [.dt, .st, .dirty, .key] s t
end

