-- ==== Sys2Proof/Laws/Decode.lean ====
section
/-! SUPPORT. The fields of the words the encoder builds, format by format, and how a word is put together from its fields:
what decoding lemmas cite. -/

namespace Sys2Proof

/-! ### Fields as numbers -/

theorem fieldG_toNat (w : Word) : (fieldG w).toNat = w.toNat / 4096 := by
  simp [fieldG, Nat.shiftRight_eq_div_pow]; omega
theorem fieldX_toNat (w : Word) : (fieldX w).toNat = w.toNat / 256 % 16 := by
  simp [fieldX, Nat.shiftRight_eq_div_pow]
theorem fieldY_toNat (w : Word) : (fieldY w).toNat = w.toNat / 16 % 16 := by
  simp [fieldY, Nat.shiftRight_eq_div_pow]
theorem fieldN_toNat (w : Word) : (fieldN w).toNat = w.toNat % 16 := by
  simp [fieldN]
theorem fieldNN_toNat (w : Word) : (fieldNN w).toNat = w.toNat % 256 := by
  simp [fieldNN]
theorem fieldNNN_toNat (w : Word) : (fieldNNN w).toNat = w.toNat % 4096 := by
  simp [fieldNNN]

/-! ### Words as numbers -/

theorem wordA_toNat (g : Nibble) (nnn : Addr) : (wordA g nnn).toNat = g.toNat * 4096 + nnn.toNat := by
  simp only [wordA, BitVec.toNat_ofNat]; omega
theorem wordXI_toNat (g x : Nibble) (nn : Byte) :
    (wordXI g x nn).toNat = g.toNat * 4096 + x.toNat * 256 + nn.toNat := by
  simp only [wordXI, BitVec.toNat_ofNat]; omega
theorem wordXY_toNat (g x y n : Nibble) :
    (wordXY g x y n).toNat = g.toNat * 4096 + x.toNat * 256 + y.toNat * 16 + n.toNat := by
  simp only [wordXY, BitVec.toNat_ofNat]; omega

/-! ### The fields of a built word -/

@[simp] theorem fieldG_wordA (g : Nibble) (nnn : Addr) : fieldG (wordA g nnn) = g := by
  apply BitVec.eq_of_toNat_eq; rw [fieldG_toNat, wordA_toNat]; omega
@[simp] theorem fieldNNN_wordA (g : Nibble) (nnn : Addr) : fieldNNN (wordA g nnn) = nnn := by
  apply BitVec.eq_of_toNat_eq; rw [fieldNNN_toNat, wordA_toNat]; omega
@[simp] theorem fieldG_wordXI (g x : Nibble) (nn : Byte) : fieldG (wordXI g x nn) = g := by
  apply BitVec.eq_of_toNat_eq; rw [fieldG_toNat, wordXI_toNat]; omega
@[simp] theorem fieldX_wordXI (g x : Nibble) (nn : Byte) : fieldX (wordXI g x nn) = x := by
  apply BitVec.eq_of_toNat_eq; rw [fieldX_toNat, wordXI_toNat]; omega
@[simp] theorem fieldNN_wordXI (g x : Nibble) (nn : Byte) : fieldNN (wordXI g x nn) = nn := by
  apply BitVec.eq_of_toNat_eq; rw [fieldNN_toNat, wordXI_toNat]; omega
@[simp] theorem fieldG_wordXY (g x y n : Nibble) : fieldG (wordXY g x y n) = g := by
  apply BitVec.eq_of_toNat_eq; rw [fieldG_toNat, wordXY_toNat]; omega
@[simp] theorem fieldX_wordXY (g x y n : Nibble) : fieldX (wordXY g x y n) = x := by
  apply BitVec.eq_of_toNat_eq; rw [fieldX_toNat, wordXY_toNat]; omega
@[simp] theorem fieldY_wordXY (g x y n : Nibble) : fieldY (wordXY g x y n) = y := by
  apply BitVec.eq_of_toNat_eq; rw [fieldY_toNat, wordXY_toNat]; omega
@[simp] theorem fieldN_wordXY (g x y n : Nibble) : fieldN (wordXY g x y n) = n := by
  apply BitVec.eq_of_toNat_eq; rw [fieldN_toNat, wordXY_toNat]; omega

/-! ### A word is its fields -/

theorem wordA_fields (w : Word) : wordA (fieldG w) (fieldNNN w) = w := by
  apply BitVec.eq_of_toNat_eq; rw [wordA_toNat, fieldG_toNat, fieldNNN_toNat]; omega
theorem wordXI_fields (w : Word) : wordXI (fieldG w) (fieldX w) (fieldNN w) = w := by
  apply BitVec.eq_of_toNat_eq; rw [wordXI_toNat, fieldG_toNat, fieldX_toNat, fieldNN_toNat]; omega
theorem wordXY_fields (w : Word) : wordXY (fieldG w) (fieldX w) (fieldY w) (fieldN w) = w := by
  apply BitVec.eq_of_toNat_eq; rw [wordXY_toNat, fieldG_toNat, fieldX_toNat, fieldY_toNat, fieldN_toNat]; omega

/-! ### Bytes of a word -/

theorem joinBytes_toNat (hi lo : Byte) : (joinBytes hi lo).toNat = hi.toNat * 256 + lo.toNat := by
  simp only [joinBytes, BitVec.toNat_ofNat]; omega

@[simp] theorem joinBytes_high_low (w : Word) : joinBytes (highByte w) (lowByte w) = w := by
  apply BitVec.eq_of_toNat_eq
  rw [joinBytes_toNat]
  simp [highByte, lowByte, Nat.shiftRight_eq_div_pow]; omega

/-! ### Words as their fields side by side, and R66's masks -/

theorem wordA_append (g : Nibble) (nnn : Addr) : wordA g nnn = g ++ nnn := by
  apply BitVec.eq_of_toNat_eq
  rw [wordA_toNat, BitVec.toNat_append, ← Nat.shiftLeft_add_eq_or_of_lt nnn.isLt, Nat.shiftLeft_eq]

theorem wordXI_append (g x : Nibble) (nn : Byte) : wordXI g x nn = g ++ x ++ nn := by
  apply BitVec.eq_of_toNat_eq
  rw [wordXI_toNat, BitVec.toNat_append, BitVec.toNat_append, ← Nat.shiftLeft_add_eq_or_of_lt nn.isLt,
    ← Nat.shiftLeft_add_eq_or_of_lt x.isLt, Nat.shiftLeft_eq, Nat.shiftLeft_eq]; omega

theorem wordXY_append (g x y n : Nibble) : wordXY g x y n = g ++ x ++ y ++ n := by
  apply BitVec.eq_of_toNat_eq
  rw [wordXY_toNat, BitVec.toNat_append, BitVec.toNat_append, BitVec.toNat_append,
    ← Nat.shiftLeft_add_eq_or_of_lt n.isLt, ← Nat.shiftLeft_add_eq_or_of_lt y.isLt,
    ← Nat.shiftLeft_add_eq_or_of_lt x.isLt, Nat.shiftLeft_eq, Nat.shiftLeft_eq, Nat.shiftLeft_eq]; omega

theorem mask_group (w : Word) : w &&& 0xF000#16 = wordA (fieldG w) 0#12 := by
  rw [wordA_append]
  apply BitVec.eq_of_getLsbD_eq
  intro i hi
  rw [BitVec.getLsbD_append, BitVec.getLsbD_and]
  interval_cases i <;> simp [fieldG]

theorem mask_low (w : Word) : w &&& 0xF00F#16 = wordXY (fieldG w) 0#4 0#4 (fieldN w) := by
  rw [wordXY_append]
  apply BitVec.eq_of_getLsbD_eq
  intro i hi
  rw [BitVec.getLsbD_append, BitVec.getLsbD_append, BitVec.getLsbD_append, BitVec.getLsbD_and]
  interval_cases i <;> simp [fieldG, fieldN]

theorem mask_lowByte (w : Word) : w &&& 0xF0FF#16 = wordXI (fieldG w) 0#4 (fieldNN w) := by
  rw [wordXI_append]
  apply BitVec.eq_of_getLsbD_eq
  intro i hi
  rw [BitVec.getLsbD_append, BitVec.getLsbD_append, BitVec.getLsbD_and]
  interval_cases i <;> simp [fieldG, fieldNN]

/-! ### Cases of decoding -/

/-- The sixteen values of a 4-bit field. -/
theorem nibble_cases (g : Nibble) :
    g = 0#4 ∨ g = 1#4 ∨ g = 2#4 ∨ g = 3#4 ∨ g = 4#4 ∨ g = 5#4 ∨ g = 6#4 ∨ g = 7#4 ∨
    g = 8#4 ∨ g = 9#4 ∨ g = 10#4 ∨ g = 11#4 ∨ g = 12#4 ∨ g = 13#4 ∨ g = 14#4 ∨ g = 15#4 := by
  have := g.isLt
  simp only [← BitVec.toNat_inj, BitVec.toNat_ofNat]
  omega

/-- The last arm of the dispatch is group F. -/
theorem decode_groupF (w : Word) (h : fieldG w = 15#4) : decode w = decodeGroupF w := by
  unfold decode; rw [h]; rfl

/-- The decoder rejects no word but under the word's own value. -/
theorem decode_error_word (w w' : Word) (h : decode w = .error (.unknownOpcode w')) : w' = w := by
  unfold decode decodeGroup0 decodeGroup8 decodeGroupE decodeGroupF at h
  split at h
  all_goals (try (split at h))
  all_goals (try (split at h))
  all_goals simp_all

/-- A row of R66's table selects by `(w & mask) == match`. -/
theorem matchesRow_iff (w : Word) (k : Fin 34) :
    matchesRow w k = true ↔
      w &&& (opcodeMap[k.val]'(by simp [opcodeMap])).2 = (opcodeMap[k.val]'(by simp [opcodeMap])).1 := by
  unfold matchesRow
  rw [List.getElem?_eq_getElem (by simp [opcodeMap])]
  simp

end Sys2Proof
end

