-- ==== Sys2Proof/Laws/State.lean ====
section
/-! SUPPORT. One lemma per field per update of State, and what each read of registers, keys and memory gives after an
update that does not touch it. No later proof unfolds a record update. -/

namespace Sys2Proof.Machine

variable (s : State)

/-! ### writeV -/

@[simp] theorem State.writeV_v (x : Nibble) (b : Byte) : (s.writeV x b).v = s.v.set x.toNat b x.isLt := rfl
@[simp] theorem State.writeV_i (x : Nibble) (b : Byte) : (s.writeV x b).i = s.i := rfl
@[simp] theorem State.writeV_pc (x : Nibble) (b : Byte) : (s.writeV x b).pc = s.pc := rfl
@[simp] theorem State.writeV_sp (x : Nibble) (b : Byte) : (s.writeV x b).sp = s.sp := rfl
@[simp] theorem State.writeV_stack (x : Nibble) (b : Byte) : (s.writeV x b).stack = s.stack := rfl
@[simp] theorem State.writeV_dt (x : Nibble) (b : Byte) : (s.writeV x b).dt = s.dt := rfl
@[simp] theorem State.writeV_st (x : Nibble) (b : Byte) : (s.writeV x b).st = s.st := rfl
@[simp] theorem State.writeV_disp (x : Nibble) (b : Byte) : (s.writeV x b).disp = s.disp := rfl
@[simp] theorem State.writeV_dirty (x : Nibble) (b : Byte) : (s.writeV x b).dirty = s.dirty := rfl
@[simp] theorem State.writeV_key (x : Nibble) (b : Byte) : (s.writeV x b).key = s.key := rfl
@[simp] theorem State.writeV_status (x : Nibble) (b : Byte) : (s.writeV x b).status = s.status := rfl
@[simp] theorem State.writeV_mem (x : Nibble) (b : Byte) : (s.writeV x b).mem = s.mem := rfl
@[simp] theorem State.writeV_rngCount (x : Nibble) (b : Byte) : (s.writeV x b).rngCount = s.rngCount := rfl
@[simp] theorem State.writeV_cfg (x : Nibble) (b : Byte) : (s.writeV x b).cfg = s.cfg := rfl

/-! ### setI -/

@[simp] theorem State.setI_v (w : Word) : (s.setI w).v = s.v := rfl
@[simp] theorem State.setI_i (w : Word) : (s.setI w).i = w := rfl
@[simp] theorem State.setI_pc (w : Word) : (s.setI w).pc = s.pc := rfl
@[simp] theorem State.setI_sp (w : Word) : (s.setI w).sp = s.sp := rfl
@[simp] theorem State.setI_stack (w : Word) : (s.setI w).stack = s.stack := rfl
@[simp] theorem State.setI_dt (w : Word) : (s.setI w).dt = s.dt := rfl
@[simp] theorem State.setI_st (w : Word) : (s.setI w).st = s.st := rfl
@[simp] theorem State.setI_disp (w : Word) : (s.setI w).disp = s.disp := rfl
@[simp] theorem State.setI_dirty (w : Word) : (s.setI w).dirty = s.dirty := rfl
@[simp] theorem State.setI_key (w : Word) : (s.setI w).key = s.key := rfl
@[simp] theorem State.setI_status (w : Word) : (s.setI w).status = s.status := rfl
@[simp] theorem State.setI_mem (w : Word) : (s.setI w).mem = s.mem := rfl
@[simp] theorem State.setI_rngCount (w : Word) : (s.setI w).rngCount = s.rngCount := rfl
@[simp] theorem State.setI_cfg (w : Word) : (s.setI w).cfg = s.cfg := rfl

/-! ### setDt -/

@[simp] theorem State.setDt_v (b : Byte) : (s.setDt b).v = s.v := rfl
@[simp] theorem State.setDt_i (b : Byte) : (s.setDt b).i = s.i := rfl
@[simp] theorem State.setDt_pc (b : Byte) : (s.setDt b).pc = s.pc := rfl
@[simp] theorem State.setDt_sp (b : Byte) : (s.setDt b).sp = s.sp := rfl
@[simp] theorem State.setDt_stack (b : Byte) : (s.setDt b).stack = s.stack := rfl
@[simp] theorem State.setDt_dt (b : Byte) : (s.setDt b).dt = b := rfl
@[simp] theorem State.setDt_st (b : Byte) : (s.setDt b).st = s.st := rfl
@[simp] theorem State.setDt_disp (b : Byte) : (s.setDt b).disp = s.disp := rfl
@[simp] theorem State.setDt_dirty (b : Byte) : (s.setDt b).dirty = s.dirty := rfl
@[simp] theorem State.setDt_key (b : Byte) : (s.setDt b).key = s.key := rfl
@[simp] theorem State.setDt_status (b : Byte) : (s.setDt b).status = s.status := rfl
@[simp] theorem State.setDt_mem (b : Byte) : (s.setDt b).mem = s.mem := rfl
@[simp] theorem State.setDt_rngCount (b : Byte) : (s.setDt b).rngCount = s.rngCount := rfl
@[simp] theorem State.setDt_cfg (b : Byte) : (s.setDt b).cfg = s.cfg := rfl

/-! ### setSt -/

@[simp] theorem State.setSt_v (b : Byte) : (s.setSt b).v = s.v := rfl
@[simp] theorem State.setSt_i (b : Byte) : (s.setSt b).i = s.i := rfl
@[simp] theorem State.setSt_pc (b : Byte) : (s.setSt b).pc = s.pc := rfl
@[simp] theorem State.setSt_sp (b : Byte) : (s.setSt b).sp = s.sp := rfl
@[simp] theorem State.setSt_stack (b : Byte) : (s.setSt b).stack = s.stack := rfl
@[simp] theorem State.setSt_dt (b : Byte) : (s.setSt b).dt = s.dt := rfl
@[simp] theorem State.setSt_st (b : Byte) : (s.setSt b).st = b := rfl
@[simp] theorem State.setSt_disp (b : Byte) : (s.setSt b).disp = s.disp := rfl
@[simp] theorem State.setSt_dirty (b : Byte) : (s.setSt b).dirty = s.dirty := rfl
@[simp] theorem State.setSt_key (b : Byte) : (s.setSt b).key = s.key := rfl
@[simp] theorem State.setSt_status (b : Byte) : (s.setSt b).status = s.status := rfl
@[simp] theorem State.setSt_mem (b : Byte) : (s.setSt b).mem = s.mem := rfl
@[simp] theorem State.setSt_rngCount (b : Byte) : (s.setSt b).rngCount = s.rngCount := rfl
@[simp] theorem State.setSt_cfg (b : Byte) : (s.setSt b).cfg = s.cfg := rfl

/-! ### setStack -/

@[simp] theorem State.setStack_v (entries : Vector Word 16) (sp : Fin 17) : (s.setStack entries sp).v = s.v := rfl
@[simp] theorem State.setStack_i (entries : Vector Word 16) (sp : Fin 17) : (s.setStack entries sp).i = s.i := rfl
@[simp] theorem State.setStack_pc (entries : Vector Word 16) (sp : Fin 17) : (s.setStack entries sp).pc = s.pc := rfl
@[simp] theorem State.setStack_sp (entries : Vector Word 16) (sp : Fin 17) : (s.setStack entries sp).sp = sp := rfl
@[simp] theorem State.setStack_stack (entries : Vector Word 16) (sp : Fin 17) : (s.setStack entries sp).stack = entries := rfl
@[simp] theorem State.setStack_dt (entries : Vector Word 16) (sp : Fin 17) : (s.setStack entries sp).dt = s.dt := rfl
@[simp] theorem State.setStack_st (entries : Vector Word 16) (sp : Fin 17) : (s.setStack entries sp).st = s.st := rfl
@[simp] theorem State.setStack_disp (entries : Vector Word 16) (sp : Fin 17) : (s.setStack entries sp).disp = s.disp := rfl
@[simp] theorem State.setStack_dirty (entries : Vector Word 16) (sp : Fin 17) : (s.setStack entries sp).dirty = s.dirty := rfl
@[simp] theorem State.setStack_key (entries : Vector Word 16) (sp : Fin 17) : (s.setStack entries sp).key = s.key := rfl
@[simp] theorem State.setStack_status (entries : Vector Word 16) (sp : Fin 17) : (s.setStack entries sp).status = s.status := rfl
@[simp] theorem State.setStack_mem (entries : Vector Word 16) (sp : Fin 17) : (s.setStack entries sp).mem = s.mem := rfl
@[simp] theorem State.setStack_rngCount (entries : Vector Word 16) (sp : Fin 17) : (s.setStack entries sp).rngCount = s.rngCount := rfl
@[simp] theorem State.setStack_cfg (entries : Vector Word 16) (sp : Fin 17) : (s.setStack entries sp).cfg = s.cfg := rfl

/-! ### setStatus -/

@[simp] theorem State.setStatus_v (c : Status) : (s.setStatus c).v = s.v := rfl
@[simp] theorem State.setStatus_i (c : Status) : (s.setStatus c).i = s.i := rfl
@[simp] theorem State.setStatus_pc (c : Status) : (s.setStatus c).pc = s.pc := rfl
@[simp] theorem State.setStatus_sp (c : Status) : (s.setStatus c).sp = s.sp := rfl
@[simp] theorem State.setStatus_stack (c : Status) : (s.setStatus c).stack = s.stack := rfl
@[simp] theorem State.setStatus_dt (c : Status) : (s.setStatus c).dt = s.dt := rfl
@[simp] theorem State.setStatus_st (c : Status) : (s.setStatus c).st = s.st := rfl
@[simp] theorem State.setStatus_disp (c : Status) : (s.setStatus c).disp = s.disp := rfl
@[simp] theorem State.setStatus_dirty (c : Status) : (s.setStatus c).dirty = s.dirty := rfl
@[simp] theorem State.setStatus_key (c : Status) : (s.setStatus c).key = s.key := rfl
@[simp] theorem State.setStatus_status (c : Status) : (s.setStatus c).status = c := rfl
@[simp] theorem State.setStatus_mem (c : Status) : (s.setStatus c).mem = s.mem := rfl
@[simp] theorem State.setStatus_rngCount (c : Status) : (s.setStatus c).rngCount = s.rngCount := rfl
@[simp] theorem State.setStatus_cfg (c : Status) : (s.setStatus c).cfg = s.cfg := rfl

/-! ### setDisplay -/

@[simp] theorem State.setDisplay_v (d : Display) : (s.setDisplay d).v = s.v := rfl
@[simp] theorem State.setDisplay_i (d : Display) : (s.setDisplay d).i = s.i := rfl
@[simp] theorem State.setDisplay_pc (d : Display) : (s.setDisplay d).pc = s.pc := rfl
@[simp] theorem State.setDisplay_sp (d : Display) : (s.setDisplay d).sp = s.sp := rfl
@[simp] theorem State.setDisplay_stack (d : Display) : (s.setDisplay d).stack = s.stack := rfl
@[simp] theorem State.setDisplay_dt (d : Display) : (s.setDisplay d).dt = s.dt := rfl
@[simp] theorem State.setDisplay_st (d : Display) : (s.setDisplay d).st = s.st := rfl
@[simp] theorem State.setDisplay_disp (d : Display) : (s.setDisplay d).disp = d := rfl
@[simp] theorem State.setDisplay_dirty (d : Display) : (s.setDisplay d).dirty = true := rfl
@[simp] theorem State.setDisplay_key (d : Display) : (s.setDisplay d).key = s.key := rfl
@[simp] theorem State.setDisplay_status (d : Display) : (s.setDisplay d).status = s.status := rfl
@[simp] theorem State.setDisplay_mem (d : Display) : (s.setDisplay d).mem = s.mem := rfl
@[simp] theorem State.setDisplay_rngCount (d : Display) : (s.setDisplay d).rngCount = s.rngCount := rfl
@[simp] theorem State.setDisplay_cfg (d : Display) : (s.setDisplay d).cfg = s.cfg := rfl

/-! ### setPc -/

@[simp] theorem State.setPc_v (w : Word) : (s.setPc w).v = s.v := rfl
@[simp] theorem State.setPc_i (w : Word) : (s.setPc w).i = s.i := rfl
@[simp] theorem State.setPc_pc (w : Word) : (s.setPc w).pc = w % 4096#16 := rfl
@[simp] theorem State.setPc_sp (w : Word) : (s.setPc w).sp = s.sp := rfl
@[simp] theorem State.setPc_stack (w : Word) : (s.setPc w).stack = s.stack := rfl
@[simp] theorem State.setPc_dt (w : Word) : (s.setPc w).dt = s.dt := rfl
@[simp] theorem State.setPc_st (w : Word) : (s.setPc w).st = s.st := rfl
@[simp] theorem State.setPc_disp (w : Word) : (s.setPc w).disp = s.disp := rfl
@[simp] theorem State.setPc_dirty (w : Word) : (s.setPc w).dirty = s.dirty := rfl
@[simp] theorem State.setPc_key (w : Word) : (s.setPc w).key = s.key := rfl
@[simp] theorem State.setPc_status (w : Word) : (s.setPc w).status = s.status := rfl
@[simp] theorem State.setPc_mem (w : Word) : (s.setPc w).mem = s.mem := rfl
@[simp] theorem State.setPc_rngCount (w : Word) : (s.setPc w).rngCount = s.rngCount := rfl
@[simp] theorem State.setPc_cfg (w : Word) : (s.setPc w).cfg = s.cfg := rfl

/-! ### advance -/

@[simp] theorem State.advance_v : s.advance.v = s.v := rfl
@[simp] theorem State.advance_i : s.advance.i = s.i := rfl
@[simp] theorem State.advance_pc : s.advance.pc = (s.pc + 2#16) % 4096#16 := rfl
@[simp] theorem State.advance_sp : s.advance.sp = s.sp := rfl
@[simp] theorem State.advance_stack : s.advance.stack = s.stack := rfl
@[simp] theorem State.advance_dt : s.advance.dt = s.dt := rfl
@[simp] theorem State.advance_st : s.advance.st = s.st := rfl
@[simp] theorem State.advance_disp : s.advance.disp = s.disp := rfl
@[simp] theorem State.advance_dirty : s.advance.dirty = s.dirty := rfl
@[simp] theorem State.advance_key : s.advance.key = s.key := rfl
@[simp] theorem State.advance_status : s.advance.status = s.status := rfl
@[simp] theorem State.advance_mem : s.advance.mem = s.mem := rfl
@[simp] theorem State.advance_rngCount : s.advance.rngCount = s.rngCount := rfl
@[simp] theorem State.advance_cfg : s.advance.cfg = s.cfg := rfl

/-! ### skipIf -/

@[simp] theorem State.skipIf_v (c : Bool) : (s.skipIf c).v = s.v := rfl
@[simp] theorem State.skipIf_i (c : Bool) : (s.skipIf c).i = s.i := rfl
@[simp] theorem State.skipIf_pc (c : Bool) : (s.skipIf c).pc = (if c then s.pc + 4#16 else s.pc + 2#16) % 4096#16 := rfl
@[simp] theorem State.skipIf_sp (c : Bool) : (s.skipIf c).sp = s.sp := rfl
@[simp] theorem State.skipIf_stack (c : Bool) : (s.skipIf c).stack = s.stack := rfl
@[simp] theorem State.skipIf_dt (c : Bool) : (s.skipIf c).dt = s.dt := rfl
@[simp] theorem State.skipIf_st (c : Bool) : (s.skipIf c).st = s.st := rfl
@[simp] theorem State.skipIf_disp (c : Bool) : (s.skipIf c).disp = s.disp := rfl
@[simp] theorem State.skipIf_dirty (c : Bool) : (s.skipIf c).dirty = s.dirty := rfl
@[simp] theorem State.skipIf_key (c : Bool) : (s.skipIf c).key = s.key := rfl
@[simp] theorem State.skipIf_status (c : Bool) : (s.skipIf c).status = s.status := rfl
@[simp] theorem State.skipIf_mem (c : Bool) : (s.skipIf c).mem = s.mem := rfl
@[simp] theorem State.skipIf_rngCount (c : Bool) : (s.skipIf c).rngCount = s.rngCount := rfl
@[simp] theorem State.skipIf_cfg (c : Bool) : (s.skipIf c).cfg = s.cfg := rfl

/-! ### memWrite -/

@[simp] theorem State.memWrite_v (a : Nat) (b : Byte) : (s.memWrite a b).v = s.v := rfl
@[simp] theorem State.memWrite_i (a : Nat) (b : Byte) : (s.memWrite a b).i = s.i := rfl
@[simp] theorem State.memWrite_pc (a : Nat) (b : Byte) : (s.memWrite a b).pc = s.pc := rfl
@[simp] theorem State.memWrite_sp (a : Nat) (b : Byte) : (s.memWrite a b).sp = s.sp := rfl
@[simp] theorem State.memWrite_stack (a : Nat) (b : Byte) : (s.memWrite a b).stack = s.stack := rfl
@[simp] theorem State.memWrite_dt (a : Nat) (b : Byte) : (s.memWrite a b).dt = s.dt := rfl
@[simp] theorem State.memWrite_st (a : Nat) (b : Byte) : (s.memWrite a b).st = s.st := rfl
@[simp] theorem State.memWrite_disp (a : Nat) (b : Byte) : (s.memWrite a b).disp = s.disp := rfl
@[simp] theorem State.memWrite_dirty (a : Nat) (b : Byte) : (s.memWrite a b).dirty = s.dirty := rfl
@[simp] theorem State.memWrite_key (a : Nat) (b : Byte) : (s.memWrite a b).key = s.key := rfl
@[simp] theorem State.memWrite_status (a : Nat) (b : Byte) : (s.memWrite a b).status = s.status := rfl
@[simp] theorem State.memWrite_mem (a : Nat) (b : Byte) : (s.memWrite a b).mem = cellsPut s.cfg s.mem (a % 4096) b := rfl
@[simp] theorem State.memWrite_rngCount (a : Nat) (b : Byte) : (s.memWrite a b).rngCount = s.rngCount := rfl
@[simp] theorem State.memWrite_cfg (a : Nat) (b : Byte) : (s.memWrite a b).cfg = s.cfg := rfl

/-! ### drawRng -/

@[simp] theorem State.drawRng_v : s.drawRng.2.v = s.v := rfl
@[simp] theorem State.drawRng_i : s.drawRng.2.i = s.i := rfl
@[simp] theorem State.drawRng_pc : s.drawRng.2.pc = s.pc := rfl
@[simp] theorem State.drawRng_sp : s.drawRng.2.sp = s.sp := rfl
@[simp] theorem State.drawRng_stack : s.drawRng.2.stack = s.stack := rfl
@[simp] theorem State.drawRng_dt : s.drawRng.2.dt = s.dt := rfl
@[simp] theorem State.drawRng_st : s.drawRng.2.st = s.st := rfl
@[simp] theorem State.drawRng_disp : s.drawRng.2.disp = s.disp := rfl
@[simp] theorem State.drawRng_dirty : s.drawRng.2.dirty = s.dirty := rfl
@[simp] theorem State.drawRng_key : s.drawRng.2.key = s.key := rfl
@[simp] theorem State.drawRng_status : s.drawRng.2.status = s.status := rfl
@[simp] theorem State.drawRng_mem : s.drawRng.2.mem = s.mem := rfl
@[simp] theorem State.drawRng_rngCount : s.drawRng.2.rngCount = s.rngCount + 1 := rfl
@[simp] theorem State.drawRng_cfg : s.drawRng.2.cfg = s.cfg := rfl

@[simp] theorem State.drawRng_byte : s.drawRng.1 = Config.rngByte s.cfg.rngSource s.rngCount := rfl

/-! ### tick -/

@[simp] theorem State.tick_v : (tick s).1.v = s.v := rfl
@[simp] theorem State.tick_i : (tick s).1.i = s.i := rfl
@[simp] theorem State.tick_pc : (tick s).1.pc = s.pc := rfl
@[simp] theorem State.tick_sp : (tick s).1.sp = s.sp := rfl
@[simp] theorem State.tick_stack : (tick s).1.stack = s.stack := rfl
@[simp] theorem State.tick_dt : (tick s).1.dt = countDown s.dt := rfl
@[simp] theorem State.tick_st : (tick s).1.st = countDown s.st := rfl
@[simp] theorem State.tick_disp : (tick s).1.disp = s.disp := rfl
@[simp] theorem State.tick_dirty : (tick s).1.dirty = s.dirty := rfl
@[simp] theorem State.tick_key : (tick s).1.key = s.key := rfl
@[simp] theorem State.tick_status : (tick s).1.status = s.status := rfl
@[simp] theorem State.tick_mem : (tick s).1.mem = s.mem := rfl
@[simp] theorem State.tick_rngCount : (tick s).1.rngCount = s.rngCount := rfl
@[simp] theorem State.tick_cfg : (tick s).1.cfg = s.cfg := rfl

/-! ### clearDirty -/

@[simp] theorem State.clearDirty_v : (clearDirty s).v = s.v := rfl
@[simp] theorem State.clearDirty_i : (clearDirty s).i = s.i := rfl
@[simp] theorem State.clearDirty_pc : (clearDirty s).pc = s.pc := rfl
@[simp] theorem State.clearDirty_sp : (clearDirty s).sp = s.sp := rfl
@[simp] theorem State.clearDirty_stack : (clearDirty s).stack = s.stack := rfl
@[simp] theorem State.clearDirty_dt : (clearDirty s).dt = s.dt := rfl
@[simp] theorem State.clearDirty_st : (clearDirty s).st = s.st := rfl
@[simp] theorem State.clearDirty_disp : (clearDirty s).disp = s.disp := rfl
@[simp] theorem State.clearDirty_dirty : (clearDirty s).dirty = false := rfl
@[simp] theorem State.clearDirty_key : (clearDirty s).key = s.key := rfl
@[simp] theorem State.clearDirty_status : (clearDirty s).status = s.status := rfl
@[simp] theorem State.clearDirty_mem : (clearDirty s).mem = s.mem := rfl
@[simp] theorem State.clearDirty_rngCount : (clearDirty s).rngCount = s.rngCount := rfl
@[simp] theorem State.clearDirty_cfg : (clearDirty s).cfg = s.cfg := rfl

/-! ### setKey -/

@[simp] theorem State.setKey_v (k : Int) (b : Bool) : (setKey k b s).v = s.v := by
  unfold setKey; split <;> rfl
@[simp] theorem State.setKey_i (k : Int) (b : Bool) : (setKey k b s).i = s.i := by
  unfold setKey; split <;> rfl
@[simp] theorem State.setKey_pc (k : Int) (b : Bool) : (setKey k b s).pc = s.pc := by
  unfold setKey; split <;> rfl
@[simp] theorem State.setKey_sp (k : Int) (b : Bool) : (setKey k b s).sp = s.sp := by
  unfold setKey; split <;> rfl
@[simp] theorem State.setKey_stack (k : Int) (b : Bool) : (setKey k b s).stack = s.stack := by
  unfold setKey; split <;> rfl
@[simp] theorem State.setKey_dt (k : Int) (b : Bool) : (setKey k b s).dt = s.dt := by
  unfold setKey; split <;> rfl
@[simp] theorem State.setKey_st (k : Int) (b : Bool) : (setKey k b s).st = s.st := by
  unfold setKey; split <;> rfl
@[simp] theorem State.setKey_disp (k : Int) (b : Bool) : (setKey k b s).disp = s.disp := by
  unfold setKey; split <;> rfl
@[simp] theorem State.setKey_dirty (k : Int) (b : Bool) : (setKey k b s).dirty = s.dirty := by
  unfold setKey; split <;> rfl
@[simp] theorem State.setKey_status (k : Int) (b : Bool) : (setKey k b s).status = s.status := by
  unfold setKey; split <;> rfl
@[simp] theorem State.setKey_mem (k : Int) (b : Bool) : (setKey k b s).mem = s.mem := by
  unfold setKey; split <;> rfl
@[simp] theorem State.setKey_rngCount (k : Int) (b : Bool) : (setKey k b s).rngCount = s.rngCount := by
  unfold setKey; split <;> rfl
@[simp] theorem State.setKey_cfg (k : Int) (b : Bool) : (setKey k b s).cfg = s.cfg := by
  unfold setKey; split <;> rfl

/-! ### memWriteBlock -/

@[simp] theorem State.memWriteBlock_v (base : Nat) (bytes : List Byte) : (s.memWriteBlock base bytes).v = s.v := by
  induction bytes generalizing s base with
  | nil => rfl
  | cons b rest ih => simp [State.memWriteBlock, ih]
@[simp] theorem State.memWriteBlock_i (base : Nat) (bytes : List Byte) : (s.memWriteBlock base bytes).i = s.i := by
  induction bytes generalizing s base with
  | nil => rfl
  | cons b rest ih => simp [State.memWriteBlock, ih]
@[simp] theorem State.memWriteBlock_pc (base : Nat) (bytes : List Byte) : (s.memWriteBlock base bytes).pc = s.pc := by
  induction bytes generalizing s base with
  | nil => rfl
  | cons b rest ih => simp [State.memWriteBlock, ih]
@[simp] theorem State.memWriteBlock_sp (base : Nat) (bytes : List Byte) : (s.memWriteBlock base bytes).sp = s.sp := by
  induction bytes generalizing s base with
  | nil => rfl
  | cons b rest ih => simp [State.memWriteBlock, ih]
@[simp] theorem State.memWriteBlock_stack (base : Nat) (bytes : List Byte) : (s.memWriteBlock base bytes).stack = s.stack := by
  induction bytes generalizing s base with
  | nil => rfl
  | cons b rest ih => simp [State.memWriteBlock, ih]
@[simp] theorem State.memWriteBlock_dt (base : Nat) (bytes : List Byte) : (s.memWriteBlock base bytes).dt = s.dt := by
  induction bytes generalizing s base with
  | nil => rfl
  | cons b rest ih => simp [State.memWriteBlock, ih]
@[simp] theorem State.memWriteBlock_st (base : Nat) (bytes : List Byte) : (s.memWriteBlock base bytes).st = s.st := by
  induction bytes generalizing s base with
  | nil => rfl
  | cons b rest ih => simp [State.memWriteBlock, ih]
@[simp] theorem State.memWriteBlock_disp (base : Nat) (bytes : List Byte) : (s.memWriteBlock base bytes).disp = s.disp := by
  induction bytes generalizing s base with
  | nil => rfl
  | cons b rest ih => simp [State.memWriteBlock, ih]
@[simp] theorem State.memWriteBlock_dirty (base : Nat) (bytes : List Byte) : (s.memWriteBlock base bytes).dirty = s.dirty := by
  induction bytes generalizing s base with
  | nil => rfl
  | cons b rest ih => simp [State.memWriteBlock, ih]
@[simp] theorem State.memWriteBlock_key (base : Nat) (bytes : List Byte) : (s.memWriteBlock base bytes).key = s.key := by
  induction bytes generalizing s base with
  | nil => rfl
  | cons b rest ih => simp [State.memWriteBlock, ih]
@[simp] theorem State.memWriteBlock_status (base : Nat) (bytes : List Byte) : (s.memWriteBlock base bytes).status = s.status := by
  induction bytes generalizing s base with
  | nil => rfl
  | cons b rest ih => simp [State.memWriteBlock, ih]
@[simp] theorem State.memWriteBlock_rngCount (base : Nat) (bytes : List Byte) : (s.memWriteBlock base bytes).rngCount = s.rngCount := by
  induction bytes generalizing s base with
  | nil => rfl
  | cons b rest ih => simp [State.memWriteBlock, ih]
@[simp] theorem State.memWriteBlock_cfg (base : Nat) (bytes : List Byte) : (s.memWriteBlock base bytes).cfg = s.cfg := by
  induction bytes generalizing s base with
  | nil => rfl
  | cons b rest ih => simp [State.memWriteBlock, ih]

/-! ### writeVs -/

@[simp] theorem State.writeVs_i (k : Nat) (bytes : List Byte) : (s.writeVs k bytes).i = s.i := by
  induction bytes generalizing s k with
  | nil => rfl
  | cons b rest ih => simp [State.writeVs, ih]
@[simp] theorem State.writeVs_pc (k : Nat) (bytes : List Byte) : (s.writeVs k bytes).pc = s.pc := by
  induction bytes generalizing s k with
  | nil => rfl
  | cons b rest ih => simp [State.writeVs, ih]
@[simp] theorem State.writeVs_sp (k : Nat) (bytes : List Byte) : (s.writeVs k bytes).sp = s.sp := by
  induction bytes generalizing s k with
  | nil => rfl
  | cons b rest ih => simp [State.writeVs, ih]
@[simp] theorem State.writeVs_stack (k : Nat) (bytes : List Byte) : (s.writeVs k bytes).stack = s.stack := by
  induction bytes generalizing s k with
  | nil => rfl
  | cons b rest ih => simp [State.writeVs, ih]
@[simp] theorem State.writeVs_dt (k : Nat) (bytes : List Byte) : (s.writeVs k bytes).dt = s.dt := by
  induction bytes generalizing s k with
  | nil => rfl
  | cons b rest ih => simp [State.writeVs, ih]
@[simp] theorem State.writeVs_st (k : Nat) (bytes : List Byte) : (s.writeVs k bytes).st = s.st := by
  induction bytes generalizing s k with
  | nil => rfl
  | cons b rest ih => simp [State.writeVs, ih]
@[simp] theorem State.writeVs_disp (k : Nat) (bytes : List Byte) : (s.writeVs k bytes).disp = s.disp := by
  induction bytes generalizing s k with
  | nil => rfl
  | cons b rest ih => simp [State.writeVs, ih]
@[simp] theorem State.writeVs_dirty (k : Nat) (bytes : List Byte) : (s.writeVs k bytes).dirty = s.dirty := by
  induction bytes generalizing s k with
  | nil => rfl
  | cons b rest ih => simp [State.writeVs, ih]
@[simp] theorem State.writeVs_key (k : Nat) (bytes : List Byte) : (s.writeVs k bytes).key = s.key := by
  induction bytes generalizing s k with
  | nil => rfl
  | cons b rest ih => simp [State.writeVs, ih]
@[simp] theorem State.writeVs_status (k : Nat) (bytes : List Byte) : (s.writeVs k bytes).status = s.status := by
  induction bytes generalizing s k with
  | nil => rfl
  | cons b rest ih => simp [State.writeVs, ih]
@[simp] theorem State.writeVs_mem (k : Nat) (bytes : List Byte) : (s.writeVs k bytes).mem = s.mem := by
  induction bytes generalizing s k with
  | nil => rfl
  | cons b rest ih => simp [State.writeVs, ih]
@[simp] theorem State.writeVs_rngCount (k : Nat) (bytes : List Byte) : (s.writeVs k bytes).rngCount = s.rngCount := by
  induction bytes generalizing s k with
  | nil => rfl
  | cons b rest ih => simp [State.writeVs, ih]
@[simp] theorem State.writeVs_cfg (k : Nat) (bytes : List Byte) : (s.writeVs k bytes).cfg = s.cfg := by
  induction bytes generalizing s k with
  | nil => rfl
  | cons b rest ih => simp [State.writeVs, ih]

/-! ### Reads after an update of something else -/

@[simp] theorem State.writeV_memRead (x : Nibble) (b : Byte) (addr : Nat) : (s.writeV x b).memRead addr = s.memRead addr := rfl
@[simp] theorem State.writeV_keyDown (x : Nibble) (b : Byte) (k : Nibble) : (s.writeV x b).keyDown k = s.keyDown k := rfl
@[simp] theorem State.setI_readV (w : Word) (j : Nibble) : (s.setI w).readV j = s.readV j := rfl
@[simp] theorem State.setI_memRead (w : Word) (addr : Nat) : (s.setI w).memRead addr = s.memRead addr := rfl
@[simp] theorem State.setI_keyDown (w : Word) (k : Nibble) : (s.setI w).keyDown k = s.keyDown k := rfl
@[simp] theorem State.setDt_readV (b : Byte) (j : Nibble) : (s.setDt b).readV j = s.readV j := rfl
@[simp] theorem State.setDt_memRead (b : Byte) (addr : Nat) : (s.setDt b).memRead addr = s.memRead addr := rfl
@[simp] theorem State.setDt_keyDown (b : Byte) (k : Nibble) : (s.setDt b).keyDown k = s.keyDown k := rfl
@[simp] theorem State.setSt_readV (b : Byte) (j : Nibble) : (s.setSt b).readV j = s.readV j := rfl
@[simp] theorem State.setSt_memRead (b : Byte) (addr : Nat) : (s.setSt b).memRead addr = s.memRead addr := rfl
@[simp] theorem State.setSt_keyDown (b : Byte) (k : Nibble) : (s.setSt b).keyDown k = s.keyDown k := rfl
@[simp] theorem State.setDisplay_readV (d : Display) (j : Nibble) : (s.setDisplay d).readV j = s.readV j := rfl
@[simp] theorem State.setDisplay_memRead (d : Display) (addr : Nat) : (s.setDisplay d).memRead addr = s.memRead addr := rfl
@[simp] theorem State.setDisplay_keyDown (d : Display) (k : Nibble) : (s.setDisplay d).keyDown k = s.keyDown k := rfl
@[simp] theorem State.setPc_readV (w : Word) (j : Nibble) : (s.setPc w).readV j = s.readV j := rfl
@[simp] theorem State.setPc_memRead (w : Word) (addr : Nat) : (s.setPc w).memRead addr = s.memRead addr := rfl
@[simp] theorem State.setPc_keyDown (w : Word) (k : Nibble) : (s.setPc w).keyDown k = s.keyDown k := rfl
@[simp] theorem State.advance_readV (j : Nibble) : s.advance.readV j = s.readV j := rfl
@[simp] theorem State.advance_memRead (addr : Nat) : s.advance.memRead addr = s.memRead addr := rfl
@[simp] theorem State.advance_keyDown (k : Nibble) : s.advance.keyDown k = s.keyDown k := rfl
@[simp] theorem State.skipIf_readV (c : Bool) (j : Nibble) : (s.skipIf c).readV j = s.readV j := rfl
@[simp] theorem State.skipIf_memRead (c : Bool) (addr : Nat) : (s.skipIf c).memRead addr = s.memRead addr := rfl
@[simp] theorem State.skipIf_keyDown (c : Bool) (k : Nibble) : (s.skipIf c).keyDown k = s.keyDown k := rfl
@[simp] theorem State.memWrite_readV (a : Nat) (b : Byte) (j : Nibble) : (s.memWrite a b).readV j = s.readV j := rfl
@[simp] theorem State.memWrite_keyDown (a : Nat) (b : Byte) (k : Nibble) : (s.memWrite a b).keyDown k = s.keyDown k := rfl
@[simp] theorem State.drawRng_readV (j : Nibble) : s.drawRng.2.readV j = s.readV j := rfl
@[simp] theorem State.drawRng_memRead (addr : Nat) : s.drawRng.2.memRead addr = s.memRead addr := rfl
@[simp] theorem State.drawRng_keyDown (k : Nibble) : s.drawRng.2.keyDown k = s.keyDown k := rfl
@[simp] theorem State.tick_readV (j : Nibble) : (tick s).1.readV j = s.readV j := rfl
@[simp] theorem State.tick_memRead (addr : Nat) : (tick s).1.memRead addr = s.memRead addr := rfl
@[simp] theorem State.tick_keyDown (k : Nibble) : (tick s).1.keyDown k = s.keyDown k := rfl
@[simp] theorem State.clearDirty_readV (j : Nibble) : (clearDirty s).readV j = s.readV j := rfl
@[simp] theorem State.clearDirty_memRead (addr : Nat) : (clearDirty s).memRead addr = s.memRead addr := rfl
@[simp] theorem State.clearDirty_keyDown (k : Nibble) : (clearDirty s).keyDown k = s.keyDown k := rfl
@[simp] theorem State.setStack_readV (entries : Vector Word 16) (sp : Fin 17) (j : Nibble) : (s.setStack entries sp).readV j = s.readV j := rfl
@[simp] theorem State.setStack_memRead (entries : Vector Word 16) (sp : Fin 17) (addr : Nat) :
    (s.setStack entries sp).memRead addr = s.memRead addr := rfl
@[simp] theorem State.setStack_keyDown (entries : Vector Word 16) (sp : Fin 17) (k : Nibble) :
    (s.setStack entries sp).keyDown k = s.keyDown k := rfl
@[simp] theorem State.setStatus_readV (c : Status) (j : Nibble) : (s.setStatus c).readV j = s.readV j := rfl
@[simp] theorem State.setStatus_memRead (c : Status) (addr : Nat) :
    (s.setStatus c).memRead addr = s.memRead addr := rfl
@[simp] theorem State.setStatus_keyDown (c : Status) (k : Nibble) :
    (s.setStatus c).keyDown k = s.keyDown k := rfl
@[simp] theorem State.setKey_readV (k : Int) (b : Bool) (j : Nibble) : (setKey k b s).readV j = s.readV j := by
  simp [State.readV]
@[simp] theorem State.setKey_memRead (k : Int) (b : Bool) (addr : Nat) : (setKey k b s).memRead addr = s.memRead addr := by
  simp [State.memRead]
@[simp] theorem State.memWriteBlock_readV (base : Nat) (bytes : List Byte) (j : Nibble) :
    (s.memWriteBlock base bytes).readV j = s.readV j := by
  simp [State.readV]
@[simp] theorem State.memWriteBlock_keyDown (base : Nat) (bytes : List Byte) (k : Nibble) :
    (s.memWriteBlock base bytes).keyDown k = s.keyDown k := by
  simp [State.keyDown]
@[simp] theorem State.writeVs_memRead (k : Nat) (bytes : List Byte) (addr : Nat) :
    (s.writeVs k bytes).memRead addr = s.memRead addr := by
  simp [State.memRead]
@[simp] theorem State.writeVs_keyDown (n : Nat) (bytes : List Byte) (k : Nibble) :
    (s.writeVs n bytes).keyDown k = s.keyDown k := by
  simp [State.keyDown]

/-- `writeFlagThenV` is two register writes: every other field is as `writeV` leaves it. -/
theorem State.writeFlagThenV_eq (flag : Bool) (x : Nibble) (b : Byte) :
    s.writeFlagThenV flag x b = (s.writeV regF (flagByte flag)).writeV x b := rfl

end Sys2Proof.Machine
end

