-- ==== Sys2Proof/Laws/Display.lean ====
section
/-! SUPPORT. The sprite compositor's shared operations: one cell, one sprite bit, one sprite row. -/

namespace Sys2Proof.Machine

/-- `flipPixel` flips its cell and leaves every other cell alone. -/
theorem pixel_flipPixel (d : Display) (x cx : Fin 64) (y cy : Fin 32) :
    pixel (flipPixel d x y) cx cy = if cx = x ∧ cy = y then !pixel d cx cy else pixel d cx cy := by
  unfold pixel flipPixel
  by_cases hx : cx = x
  · subst hx
    by_cases hy : cy = y
    · subst hy; simp [pixel]
    · have : y.val ≠ cy.val := fun h => hy (Fin.ext h).symm
      simp [hy, this]
  · have : x.val ≠ cx.val := fun h => hx (Fin.ext h).symm
    simp [hx, this]

@[simp] theorem pixel_blankDisplay (cx : Fin 64) (cy : Fin 32) : pixel blankDisplay cx cy = false := by
  simp [pixel, blankDisplay]

/-- A sprite bit at column `x`, row `y` lands on cell (cx, cy): wrapped or, clipped, itself (R121). -/
def Lands (wrap : Bool) (x y : Nat) (cx : Fin 64) (cy : Fin 32) : Prop :=
  if wrap then x % 64 = cx.val ∧ y % 32 = cy.val else x = cx.val ∧ y = cy.val

theorem landColumn_eq_some (wrap : Bool) (x : Nat) (cx : Fin 64) :
    landColumn wrap x = some cx ↔ if wrap then x % 64 = cx.val else x = cx.val := by
  have := cx.isLt
  unfold landColumn
  cases wrap <;> split <;> simp [Fin.ext_iff] <;> omega

theorem landRow_eq_some (wrap : Bool) (y : Nat) (cy : Fin 32) :
    landRow wrap y = some cy ↔ if wrap then y % 32 = cy.val else y = cy.val := by
  have := cy.isLt
  unfold landRow
  cases wrap <;> split <;> simp [Fin.ext_iff] <;> omega

/-- A set bit that lands flips its cell and no other; a clear or clipped bit changes nothing. -/
theorem pixel_drawBit (wrap : Bool) (x y : Nat) (bit : Bool) (acc : Display × Bool) (cx : Fin 64) (cy : Fin 32)
    (lands : Decidable (bit = true ∧ Lands wrap x y cx cy)) :
    pixel (drawBit wrap x y bit acc).1 cx cy =
      if bit = true ∧ Lands wrap x y cx cy then !pixel acc.1 cx cy else pixel acc.1 cx cy := by
  have hL : Lands wrap x y cx cy ↔ landColumn wrap x = some cx ∧ landRow wrap y = some cy := by
    rw [landColumn_eq_some, landRow_eq_some]; unfold Lands; cases wrap <;> simp
  simp only [hL]
  unfold drawBit
  cases bit with
  | false => simp
  | true =>
    cases hc : landColumn wrap x with
    | none => simp
    | some c =>
      cases hr : landRow wrap y with
      | none => simp
      | some r =>
        simp only [if_true, pixel_flipPixel, Option.some.injEq, true_and]
        have : (cx = c ∧ cy = r) ↔ (c = cx ∧ r = cy) := by constructor <;> rintro ⟨rfl, rfl⟩ <;> simp
        simp only [this]

/-- A collision is recorded exactly when a set bit lands on a cell that is on. -/
theorem collision_drawBit (wrap : Bool) (x y : Nat) (bit : Bool) (acc : Display × Bool) :
    (drawBit wrap x y bit acc).2 = true ↔
      acc.2 = true ∨ (bit = true ∧ ∃ cx cy, Lands wrap x y cx cy ∧ pixel acc.1 cx cy = true) := by
  have hL : ∀ cx cy, Lands wrap x y cx cy ↔ landColumn wrap x = some cx ∧ landRow wrap y = some cy := by
    intro cx cy
    rw [landColumn_eq_some, landRow_eq_some]; unfold Lands; cases wrap <;> simp
  simp only [hL]
  unfold drawBit
  cases bit with
  | false => simp
  | true =>
    cases hc : landColumn wrap x with
    | none => simp
    | some c =>
      cases hr : landRow wrap y with
      | none => simp
      | some r => simp

/-- The first `m` columns of a sprite row: each lands on cells of its own, so a cell is flipped at most once. -/
theorem pixel_drawColumns (wrap : Bool) (x0 y : Nat) (row : Byte) (acc : Display × Bool) (m : Nat) (hm : m ≤ 8)
    (cx : Fin 64) (cy : Fin 32) :
    ((∃ c, c < m ∧ row.getLsbD (7 - c) = true ∧ Lands wrap (x0 + c) y cx cy) →
      pixel ((List.range m).foldl (fun a c => drawBit wrap (x0 + c) y (row.getLsbD (7 - c)) a) acc).1 cx cy =
        !pixel acc.1 cx cy) ∧
    ((¬ ∃ c, c < m ∧ row.getLsbD (7 - c) = true ∧ Lands wrap (x0 + c) y cx cy) →
      pixel ((List.range m).foldl (fun a c => drawBit wrap (x0 + c) y (row.getLsbD (7 - c)) a) acc).1 cx cy =
        pixel acc.1 cx cy) := by
  induction m with
  | zero => simp
  | succ m ih =>
    have ih := ih (by omega)
    rw [List.range_succ, List.foldl_append, List.foldl_cons, List.foldl_nil,
      pixel_drawBit wrap (x0 + m) y _ _ cx cy (Classical.propDecidable _)]
    have apart : ∀ c, c < m → Lands wrap (x0 + c) y cx cy → ¬ Lands wrap (x0 + m) y cx cy := by
      intro c hc; unfold Lands; cases wrap <;> simp <;> omega
    constructor
    · rintro ⟨c, hc, hb, hl⟩
      rcases Nat.lt_succ_iff_lt_or_eq.mp hc with hc | rfl
      · rw [if_neg fun h => apart c hc hl h.2, ih.1 ⟨c, hc, hb, hl⟩]
      · rw [if_pos ⟨hb, hl⟩, ih.2 fun ⟨d, hd, _, hdl⟩ => apart d hd hdl hl]
    · intro h
      rw [if_neg fun hm => h ⟨m, by omega, hm⟩, ih.2 fun ⟨c, hc, hb, hl⟩ => h ⟨c, by omega, hb, hl⟩]

/-- A sprite row flips exactly the cells its set bits land on. -/
theorem pixel_drawRow (wrap : Bool) (x0 y : Nat) (row : Byte) (acc : Display × Bool) (cx : Fin 64) (cy : Fin 32) :
    ((∃ c, c < 8 ∧ row.getLsbD (7 - c) = true ∧ Lands wrap (x0 + c) y cx cy) →
      pixel (drawRow wrap x0 y row acc).1 cx cy = !pixel acc.1 cx cy) ∧
    ((¬ ∃ c, c < 8 ∧ row.getLsbD (7 - c) = true ∧ Lands wrap (x0 + c) y cx cy) →
      pixel (drawRow wrap x0 y row acc).1 cx cy = pixel acc.1 cx cy) :=
  pixel_drawColumns wrap x0 y row acc 8 (by omega) cx cy

/-- A sprite row collides exactly when one of its set bits lands on a cell that was on before the row. -/
theorem collision_drawRow (wrap : Bool) (x0 y : Nat) (row : Byte) (acc : Display × Bool) :
    (drawRow wrap x0 y row acc).2 = true ↔
      acc.2 = true ∨ ∃ c, c < 8 ∧ row.getLsbD (7 - c) = true ∧
        ∃ cx cy, Lands wrap (x0 + c) y cx cy ∧ pixel acc.1 cx cy = true := by
  have columns : ∀ m, m ≤ 8 →
      (((List.range m).foldl (fun a c => drawBit wrap (x0 + c) y (row.getLsbD (7 - c)) a) acc).2 = true ↔
        acc.2 = true ∨ ∃ c, c < m ∧ row.getLsbD (7 - c) = true ∧
          ∃ cx cy, Lands wrap (x0 + c) y cx cy ∧ pixel acc.1 cx cy = true) := by
    intro m hm
    induction m with
    | zero => simp
    | succ m ih =>
      rw [List.range_succ, List.foldl_append, List.foldl_cons, List.foldl_nil, collision_drawBit, ih (by omega)]
      have keep : ∀ cx cy, Lands wrap (x0 + m) y cx cy →
          pixel ((List.range m).foldl (fun a c => drawBit wrap (x0 + c) y (row.getLsbD (7 - c)) a) acc).1 cx cy =
            pixel acc.1 cx cy := by
        intro cx cy hl
        refine (pixel_drawColumns wrap x0 y row acc m (by omega) cx cy).2 ?_
        rintro ⟨c, hc, _, hcl⟩
        revert hl hcl; unfold Lands; cases wrap <;> simp <;> omega
      constructor
      · rintro ((h | ⟨c, hc, h⟩) | ⟨hb, cx, cy, hl, hp⟩)
        · exact .inl h
        · exact .inr ⟨c, by omega, h⟩
        · exact .inr ⟨m, by omega, hb, cx, cy, hl, by rwa [keep cx cy hl] at hp⟩
      · rintro (h | ⟨c, hc, hb, cx, cy, hl, hp⟩)
        · exact .inl (.inl h)
        · rcases Nat.lt_succ_iff_lt_or_eq.mp hc with hc | rfl
          · exact .inl (.inr ⟨c, hc, hb, cx, cy, hl, hp⟩)
          · exact .inr ⟨hb, cx, cy, hl, by rwa [keep cx cy hl]⟩
  exact columns 8 (by omega)

end Sys2Proof.Machine
end

