-- ==== Sys2Proof/Laws/Memory.lean ====
section
/-! SUPPORT. Memory: a read after a write, that a write leaves every other cell alone, that every operation keeps the
canonical form, and what a block write does. All hold of every list of cells, canonical or not, but for the canonical
form itself. -/

namespace Sys2Proof.Machine

/-! ### One cell -/

theorem cellsGet_filter_ne (cfg : Config) (cells : List Host.Cell) (a a' : Nat) (h : a' ≠ a) :
    cellsGet cfg (cells.filter fun c => c.1 != a) a' = cellsGet cfg cells a' := by
  induction cells with
  | nil => rfl
  | cons c rest ih =>
    obtain ⟨k, b⟩ := c
    by_cases hk : k = a
    · subst hk
      simp [cellsGet, ih, Ne.symm h]
    · simp [hk, cellsGet, ih]

theorem cellsGet_filter_same (cfg : Config) (cells : List Host.Cell) (a : Nat) :
    cellsGet cfg (cells.filter fun c => c.1 != a) a = memBackground cfg a := by
  induction cells with
  | nil => rfl
  | cons c rest ih =>
    obtain ⟨k, b⟩ := c
    by_cases hk : k = a
    · simp [hk, ih]
    · simp [hk, cellsGet, ih]

theorem cellsGet_cellsInsert_ne (cfg : Config) (cells : List Host.Cell) (a a' : Nat) (b : Byte) (h : a' ≠ a) :
    cellsGet cfg (cellsInsert a b cells) a' = cellsGet cfg cells a' := by
  induction cells with
  | nil => simp [cellsInsert, cellsGet, Ne.symm h]
  | cons c rest ih =>
    obtain ⟨k, d⟩ := c
    by_cases hk : a < k
    · simp [cellsInsert, hk, cellsGet, Ne.symm h]
    · simp [cellsInsert, hk, cellsGet, ih]

theorem cellsGet_cellsInsert_same (cfg : Config) (cells : List Host.Cell) (a : Nat) (b : Byte)
    (h : ∀ c ∈ cells, c.1 ≠ a) : cellsGet cfg (cellsInsert a b cells) a = b := by
  induction cells with
  | nil => simp [cellsInsert, cellsGet]
  | cons c rest ih =>
    obtain ⟨k, d⟩ := c
    have hne : k ≠ a := h (k, d) (by simp)
    by_cases hk : a < k
    · simp [cellsInsert, hk, cellsGet]
    · simp [cellsInsert, hk, cellsGet, hne, ih fun c hc => h c (by simp [hc])]

theorem cellsGet_cellsPut_same (cfg : Config) (cells : List Host.Cell) (a : Nat) (b : Byte) :
    cellsGet cfg (cellsPut cfg cells a b) a = b := by
  unfold cellsPut
  by_cases hb : b = memBackground cfg a
  · simp [hb, cellsGet_filter_same]
  · simp only [hb, if_false]
    exact cellsGet_cellsInsert_same cfg _ a b (by simp)

theorem cellsGet_cellsPut_ne (cfg : Config) (cells : List Host.Cell) (a a' : Nat) (b : Byte) (h : a' ≠ a) :
    cellsGet cfg (cellsPut cfg cells a b) a' = cellsGet cfg cells a' := by
  unfold cellsPut
  by_cases hb : b = memBackground cfg a
  · simp [hb, cellsGet_filter_ne cfg cells a a' h]
  · simp [hb, cellsGet_cellsInsert_ne cfg _ a a' b h, cellsGet_filter_ne cfg cells a a' h]

/-! ### The canonical form -/

theorem Memory.wf_nil (cfg : Config) : Memory.wf cfg [] := by simp [Memory.wf]

theorem mem_cellsInsert (a : Nat) (b : Byte) (cells : List Host.Cell) (c : Host.Cell) :
    c ∈ cellsInsert a b cells ↔ c = (a, b) ∨ c ∈ cells := by
  induction cells with
  | nil => simp [cellsInsert]
  | cons d rest ih =>
    obtain ⟨k, e⟩ := d
    by_cases hk : a < k
    · simp [cellsInsert, hk]
    · simp only [cellsInsert, hk, if_false, List.mem_cons, ih]; tauto

theorem cellsInsert_rising (a : Nat) (b : Byte) (cells : List Host.Cell)
    (h : cells.Pairwise fun c d => c.1 < d.1) (hne : ∀ c ∈ cells, c.1 ≠ a) :
    (cellsInsert a b cells).Pairwise fun c d => c.1 < d.1 := by
  induction cells with
  | nil => simp [cellsInsert]
  | cons d rest ih =>
    obtain ⟨k, e⟩ := d
    rw [List.pairwise_cons] at h
    have hka : k ≠ a := hne (k, e) (by simp)
    by_cases hk : a < k
    · simp only [cellsInsert, hk, if_true, List.pairwise_cons]
      refine ⟨fun c hc => ?_, h⟩
      rcases List.mem_cons.mp hc with rfl | hc
      · exact hk
      · exact lt_trans hk (h.1 c hc)
    · simp only [cellsInsert, hk, if_false, List.pairwise_cons]
      refine ⟨fun c hc => ?_, ih h.2 fun c hc => hne c (by simp [hc])⟩
      rcases (mem_cellsInsert a b rest c).mp hc with rfl | hc
      · show k < a
        omega
      · exact h.1 c hc

/-- A store keeps the canonical form. -/
theorem cellsPut_wf (cfg : Config) (cells : List Host.Cell) (a : Nat) (b : Byte) (ha : a < 4096)
    (h : Memory.wf cfg cells) : Memory.wf cfg (cellsPut cfg cells a b) := by
  have hsub : (cells.filter fun c => c.1 != a).Pairwise fun c d => c.1 < d.1 := h.1.filter _
  unfold cellsPut
  by_cases hb : b = memBackground cfg a
  · simp only [hb, if_true]
    exact ⟨hsub, fun c hc => h.2 c (List.mem_of_mem_filter hc)⟩
  · simp only [hb, if_false]
    refine ⟨cellsInsert_rising a b _ hsub (by simp), fun c hc => ?_⟩
    rcases (mem_cellsInsert a b _ c).mp hc with rfl | hc
    · exact ⟨ha, hb⟩
    · exact h.2 c (List.mem_of_mem_filter hc)

/-- `MemWrite` keeps the canonical form. -/
theorem State.memWrite_wf (s : State) (addr : Nat) (b : Byte) (h : Memory.wf s.cfg s.mem) :
    Memory.wf s.cfg (s.memWrite addr b).mem :=
  cellsPut_wf s.cfg s.mem (addr % 4096) b (Nat.mod_lt _ (by omega)) h

/-- A block write keeps the canonical form. -/
theorem State.memWriteBlock_wf (s : State) (base : Nat) (bytes : List Byte) (h : Memory.wf s.cfg s.mem) :
    Memory.wf s.cfg (s.memWriteBlock base bytes).mem := by
  induction bytes generalizing s base with
  | nil => exact h
  | cons b rest ih => exact ih (s.memWrite base b) (base + 1) (s.memWrite_wf base b h)

/-- Placing an instruction word keeps the canonical form. -/
theorem State.placeWord_wf (s : State) (w : Word) (h : Memory.wf s.cfg s.mem) :
    Memory.wf s.cfg (s.placeWord w).mem :=
  (s.memWrite s.pc.toNat (highByte w)).memWrite_wf _ _ (s.memWrite_wf _ _ h)

/-- Memory right after reset is canonical: it lists nothing. -/
theorem State.resetWith_wf (cfg : Config) : Memory.wf cfg (State.resetWith cfg).mem := Memory.wf_nil cfg

/-! ### The access primitives -/

theorem State.memRead_memWrite_same (s : State) (a a' : Nat) (b : Byte) (h : a' % 4096 = a % 4096) :
    (s.memWrite a b).memRead a' = b := by
  simp only [State.memRead, State.memWrite, h]
  exact cellsGet_cellsPut_same s.cfg s.mem (a % 4096) b

theorem State.memRead_memWrite_ne (s : State) (a a' : Nat) (b : Byte) (h : a' % 4096 ≠ a % 4096) :
    (s.memWrite a b).memRead a' = s.memRead a' :=
  cellsGet_cellsPut_ne s.cfg s.mem (a % 4096) (a' % 4096) b h

/-- Only the low 12 bits of an address select the byte (R40). -/
theorem State.memRead_mod (s : State) (a : Nat) : s.memRead (a % 4096) = s.memRead a := by
  simp [State.memRead]

/-! ### Blocks -/

/-- A block write leaves every cell outside the block alone. -/
theorem State.memRead_memWriteBlock_outside (s : State) (base : Nat) (bytes : List Byte) (a : Nat)
    (h : ∀ k, k < bytes.length → a % 4096 ≠ (base + k) % 4096) :
    (s.memWriteBlock base bytes).memRead a = s.memRead a := by
  induction bytes generalizing s base with
  | nil => rfl
  | cons b rest ih =>
    have h0 : a % 4096 ≠ base % 4096 := h 0 (by simp)
    rw [State.memWriteBlock, ih (s.memWrite base b) (base + 1), State.memRead_memWrite_ne _ _ _ _ h0]
    intro k hk
    have := h (k + 1) (by simp only [List.length_cons]; omega)
    rwa [show base + 1 + k = base + (k + 1) by omega]

/-- A block write stores byte `k` at `base + k`, modulo 4096; a block that fits in memory does not overlap itself. -/
theorem State.memRead_memWriteBlock_inside (s : State) (base : Nat) (bytes : List Byte) (k : Nat)
    (hk : k < bytes.length) (hlen : bytes.length ≤ 4096) :
    (s.memWriteBlock base bytes).memRead (base + k) = bytes[k] := by
  induction bytes generalizing s base k with
  | nil => simp at hk
  | cons b rest ih =>
    simp only [List.length_cons] at hk hlen
    cases k with
    | zero =>
      rw [State.memWriteBlock, State.memRead_memWriteBlock_outside]
      · simp [State.memRead_memWrite_same]
      · intro k hk; omega
    | succ k =>
      have := ih (s.memWrite base b) (base + 1) k (by omega) (by omega)
      rw [State.memWriteBlock, show base + (k + 1) = base + 1 + k by omega, this]
      simp

theorem State.memReadBlock_length (s : State) (base count : Nat) : (s.memReadBlock base count).length = count := by
  simp [State.memReadBlock]

theorem State.memReadBlock_getElem (s : State) (base count k : Nat) (h : k < (s.memReadBlock base count).length) :
    (s.memReadBlock base count)[k] = s.memRead (base + k) := by
  simp [State.memReadBlock]

/-- A block write changes memory only. -/
theorem State.memWriteBlock_eq (s : State) (base : Nat) (bytes : List Byte) :
    s.memWriteBlock base bytes = { s with mem := (s.memWriteBlock base bytes).mem } := by
  induction bytes generalizing s base with
  | nil => rfl
  | cons b rest ih =>
    simp only [State.memWriteBlock]; rw [ih (s.memWrite base b) (base + 1)]; simp [State.memWrite]

/-- What a block write leaves in memory depends on the memory and the configuration alone. -/
theorem State.memWriteBlock_mem_congr (s t : State) (base : Nat) (bytes : List Byte) (hm : t.mem = s.mem)
    (hc : t.cfg = s.cfg) : (t.memWriteBlock base bytes).mem = (s.memWriteBlock base bytes).mem := by
  induction bytes generalizing s t base with
  | nil => exact hm
  | cons b rest ih => exact ih _ _ _ (by simp [hm, hc]) hc

/-- Only the low 12 bits of its base address matter to a block write. -/
theorem State.memWriteBlock_mod (s : State) (a b : Nat) (bytes : List Byte) (h : a % 4096 = b % 4096) :
    s.memWriteBlock a bytes = s.memWriteBlock b bytes := by
  induction bytes generalizing s a b with
  | nil => rfl
  | cons x rest ih =>
    simp only [State.memWriteBlock]
    rw [show s.memWrite a x = s.memWrite b x by simp [State.memWrite, h]]
    exact ih _ _ _ (by omega)

/-- A block read depends on the low 12 bits of its base address and on the bytes alone. -/
theorem State.memReadBlock_congr (s t : State) (a b count : Nat) (h : a % 4096 = b % 4096)
    (hm : ∀ k, t.memRead k = s.memRead k) : t.memReadBlock a count = s.memReadBlock b count := by
  unfold State.memReadBlock; congr 1; funext k
  rw [hm, ← State.memRead_mod s (a + k), ← State.memRead_mod s (b + k)]; congr 1; omega

end Sys2Proof.Machine
end

