-- ==== Sys2Proof/Laws/Ops.lean ====
section
/-! SUPPORT. What each shared operation over registers, PC, the stack and the fault entry does, once. -/

namespace Sys2Proof.Machine

variable (s : State)

/-! ### General registers -/

@[simp] theorem State.readV_writeV_same (x : Nibble) (b : Byte) : (s.writeV x b).readV x = b := by
  simp [State.readV, State.writeV]

theorem State.readV_writeV_ne (x j : Nibble) (b : Byte) (h : j ≠ x) : (s.writeV x b).readV j = s.readV j := by
  have : x.toNat ≠ j.toNat := fun hn => h (BitVec.eq_of_toNat_eq hn).symm
  simp [State.readV, State.writeV, this]

theorem State.readV_writeV (x j : Nibble) (b : Byte) :
    (s.writeV x b).readV j = if j = x then b else s.readV j := by
  split
  · subst_vars; exact s.readV_writeV_same _ b
  · exact s.readV_writeV_ne x j b ‹_›

/-- The result wins over the flag (R64). -/
theorem State.readV_writeFlagThenV_same (f : Bool) (x : Nibble) (b : Byte) :
    (s.writeFlagThenV f x b).readV x = b := by
  simp [State.writeFlagThenV]

/-- VF holds the flag unless VF is the destination. -/
theorem State.readV_writeFlagThenV_flag (f : Bool) (x : Nibble) (b : Byte) (h : x ≠ regF) :
    (s.writeFlagThenV f x b).readV regF = flagByte f := by
  rw [State.writeFlagThenV, State.readV_writeV_ne _ _ _ _ (Ne.symm h), State.readV_writeV_same]

theorem State.readV_writeFlagThenV_other (f : Bool) (x j : Nibble) (b : Byte) (hx : j ≠ x) (hf : j ≠ regF) :
    (s.writeFlagThenV f x b).readV j = s.readV j := by
  rw [State.writeFlagThenV, State.readV_writeV_ne _ _ _ _ hx, State.readV_writeV_ne _ _ _ _ hf]

theorem State.readVs_length (x : Nibble) : (s.readVs x).length = x.toNat + 1 := by simp [State.readVs]

theorem State.readVs_getElem (x : Nibble) (k : Nat) (h : k < (s.readVs x).length) :
    (s.readVs x)[k] = s.readV (BitVec.ofNat 4 k) := by
  simp [State.readVs]

/-- A register block write leaves every register outside the block alone. -/
theorem State.readV_writeVs_outside (k : Nat) (bytes : List Byte) (j : Nibble)
    (h : j.toNat < k ∨ k + bytes.length ≤ j.toNat) (hk : k + bytes.length ≤ 16) :
    (s.writeVs k bytes).readV j = s.readV j := by
  induction bytes generalizing s k with
  | nil => rfl
  | cons b rest ih =>
    simp only [List.length_cons] at h hk
    rw [State.writeVs, ih _ _ (by omega) (by omega), State.readV_writeV_ne]
    intro hj
    have : j.toNat = k % 16 := by rw [hj]; simp
    omega

/-- A register block write puts byte `j` into register `k + j`. -/
theorem State.readV_writeVs_inside (k : Nat) (bytes : List Byte) (j : Nat) (hj : j < bytes.length)
    (hk : k + bytes.length ≤ 16) : (s.writeVs k bytes).readV (BitVec.ofNat 4 (k + j)) = bytes[j] := by
  induction bytes generalizing s k j with
  | nil => simp at hj
  | cons b rest ih =>
    simp only [List.length_cons] at hj hk
    cases j with
    | zero =>
      rw [State.writeVs, State.readV_writeVs_outside]
      · simp
      · left; simp; omega
      · omega
    | succ j =>
      have := ih (s.writeV (BitVec.ofNat 4 k) b) (k + 1) j (by omega) (by omega)
      rw [State.writeVs, show k + (j + 1) = k + 1 + j by omega, this]
      simp

/-- A register block write changes the registers only. -/
theorem State.writeVs_eq (k : Nat) (bytes : List Byte) :
    s.writeVs k bytes = { s with v := (s.writeVs k bytes).v } := by
  induction bytes generalizing s k with
  | nil => rfl
  | cons b rest ih => simp only [State.writeVs]; rw [ih (s.writeV _ b) (k + 1)]; simp [State.writeV]

/-- What a register block write leaves in the registers depends on the registers alone. -/
theorem State.writeVs_v_congr (t : State) (k : Nat) (bytes : List Byte) (h : t.v = s.v) :
    (t.writeVs k bytes).v = (s.writeVs k bytes).v := by
  induction bytes generalizing s t k with
  | nil => exact h
  | cons b rest ih => exact ih _ _ _ (by simp [h])

/-! ### Operands as numbers -/

@[simp] theorem addrWord_toNat (nnn : Addr) : (addrWord nnn).toNat = nnn.toNat := by simp [addrWord]; omega
@[simp] theorem byteWord_toNat (b : Byte) : (byteWord b).toNat = b.toNat := by simp [byteWord]; omega
@[simp] theorem lowNibble_toNat (b : Byte) : (lowNibble b).toNat = b.toNat % 16 := by simp [lowNibble]

/-! ### Program counter -/

/-- Every write of PC stores the value modulo 4096 (R14). -/
@[simp] theorem State.setPc_pc_toNat (w : Word) : (s.setPc w).pc.toNat = w.toNat % 4096 := by
  simp [State.setPc]

theorem State.advance_pc_toNat : s.advance.pc.toNat = (s.pc.toNat + 2) % 4096 := by
  simp [BitVec.toNat_add]

theorem State.skipIf_pc_toNat (c : Bool) :
    (s.skipIf c).pc.toNat = (s.pc.toNat + if c then 4 else 2) % 4096 := by
  cases c <;> simp [BitVec.toNat_add]

/-- The frame's words for a PC that moved on: `PcPlus`. -/
theorem pcPlus_of_advance (t : State) (h : t.pc = s.advance.pc) : PcPlus 2 s t := by
  unfold PcPlus; rw [h, State.advance_pc_toNat]

theorem pcPlus_of_skipIf (c : Prop) [Decidable c] (b : Bool) (h : b = decide c) :
    PcPlus (if c then 4 else 2) s (s.skipIf b) := by
  unfold PcPlus; rw [State.skipIf_pc_toNat, h]; simp

/-! ### The hardware stack -/

theorem State.push_eq_none (w : Word) : s.push w = none ↔ s.sp.val = 16 := by
  have := s.sp.isLt
  unfold State.push
  split <;> simp <;> omega

theorem State.push_eq_some (w : Word) (t : State) :
    s.push w = some t ↔ ∃ h : s.sp.val < 16,
      t = s.setStack (s.stack.set s.sp.val w h) ⟨s.sp.val + 1, by omega⟩ := by
  unfold State.push
  split <;> simp_all [eq_comm]

theorem State.pop_eq_none : s.pop = none ↔ s.sp.val = 0 := by
  unfold State.pop
  split <;> simp <;> omega

theorem State.pop_eq_some (w : Word) (t : State) :
    s.pop = some (w, t) ↔ ∃ h : 0 < s.sp.val,
      w = s.stack[s.sp.val - 1]'(by omega) ∧ t = s.setStack s.stack ⟨s.sp.val - 1, by omega⟩ := by
  unfold State.pop
  split <;> simp_all [eq_comm]

/-! ### Faults and the fetch -/

theorem takeFault_eq (code : Status) : takeFault code s = .next (s.setStatus code) := rfl

theorem execUnknown_eq (e : DecodeError) : execUnknown e s = .next s.advance := rfl

theorem State.halted_eq_false : s.halted = false ↔ s.status = .running := by simp [State.halted]

/-- After a word is placed at PC the fetch reads exactly it. -/
theorem State.fetchWord_placeWord (w : Word) : (s.placeWord w).fetchWord = w := by
  have hhi : (s.placeWord w).memRead s.pc.toNat = highByte w := by
    show ((s.memWrite s.pc.toNat (highByte w)).memWrite (s.pc.toNat + 1) (lowByte w)).memRead s.pc.toNat = _
    rw [State.memRead_memWrite_ne _ _ _ _ (by omega), State.memRead_memWrite_same _ _ _ _ rfl]
  have hlo : (s.placeWord w).memRead (s.pc.toNat + 1) = lowByte w := by
    show ((s.memWrite s.pc.toNat (highByte w)).memWrite (s.pc.toNat + 1) (lowByte w)).memRead (s.pc.toNat + 1) = _
    rw [State.memRead_memWrite_same _ _ _ _ rfl]
  have hpc : (s.placeWord w).pc = s.pc := rfl
  rw [State.fetchWord, hpc, hhi, hlo]
  exact joinBytes_high_low w

/-! ### Keys -/

theorem State.firstKey_eq_none : s.firstKey = none ↔ ∀ k, s.keyDown k = false := by
  simp only [State.firstKey, List.find?_eq_none, List.mem_map, List.mem_range]
  constructor
  · intro h k
    have := h k ⟨k.toNat, k.isLt, by simp⟩
    simpa using this
  · intro h k _
    simp [h k]

/-- The lowest pressed key is the one `firstKey` finds. -/
theorem State.firstKey_eq_some (k : Nibble) (h : s.keyDown k = true)
    (low : ∀ j : Nibble, j.toNat < k.toNat → s.keyDown j = false) : s.firstKey = some k := by
  unfold State.firstKey
  rw [List.find?_eq_some_iff_getElem]
  refine ⟨h, k.toNat, by simp; omega, by simp, ?_⟩
  intro j hj
  simp; apply low; simp; omega

end Sys2Proof.Machine
end

