-- ==== Sys2Proof/Laws/PerInstr.lean ====
section
/-! SUPPORT. Family EncodesInItsRow: the word of every instruction lies in the instruction's own row of the opcode map
(spec/30_encoding.md R66), `(w & mask) == match`, one lemma per constructor. -/

namespace Sys2Proof.Laws.EncodesInItsRow

open Sys2Proof

/-- The word of the instruction selects its row of R66's table. -/
def Statement (i : Instr) : Prop := matchesRow (encode i) i.row = true

/-! Each pattern of R66: a word of the format, its mask, and what is left of it. -/

theorem inGroup (w : Word) (k : Fin 34) (m : Word) (hk : opcodeMap[k.val]? = some (m, 0xF000#16))
    (hm : wordA (fieldG w) 0#12 = m) : matchesRow w k = true := by
  simp [matchesRow, hk, mask_group, hm]

theorem inLowNibble (w : Word) (k : Fin 34) (m : Word) (hk : opcodeMap[k.val]? = some (m, 0xF00F#16))
    (hm : wordXY (fieldG w) 0#4 0#4 (fieldN w) = m) : matchesRow w k = true := by
  simp [matchesRow, hk, mask_low, hm]

theorem inLowByte (w : Word) (k : Fin 34) (m : Word) (hk : opcodeMap[k.val]? = some (m, 0xF0FF#16))
    (hm : wordXI (fieldG w) 0#4 (fieldNN w) = m) : matchesRow w k = true := by
  simp [matchesRow, hk, mask_lowByte, hm]

theorem cls : Statement .cls :=
  by unfold Statement; decide
theorem ret : Statement .ret :=
  by unfold Statement; decide
theorem jp (nnn : Addr) : Statement (.jp nnn) :=
  inGroup _ _ 0x1000#16 rfl (by simp [encode]; decide)
theorem call (nnn : Addr) : Statement (.call nnn) :=
  inGroup _ _ 0x2000#16 rfl (by simp [encode]; decide)
theorem seImm (x : Nibble) (nn : Byte) : Statement (.seImm x nn) :=
  inGroup _ _ 0x3000#16 rfl (by simp [encode]; decide)
theorem sneImm (x : Nibble) (nn : Byte) : Statement (.sneImm x nn) :=
  inGroup _ _ 0x4000#16 rfl (by simp [encode]; decide)
theorem seReg (x y ignored : Nibble) : Statement (.seReg x y ignored) :=
  inGroup _ _ 0x5000#16 rfl (by simp [encode]; decide)
theorem ldImm (x : Nibble) (nn : Byte) : Statement (.ldImm x nn) :=
  inGroup _ _ 0x6000#16 rfl (by simp [encode]; decide)
theorem addImm (x : Nibble) (nn : Byte) : Statement (.addImm x nn) :=
  inGroup _ _ 0x7000#16 rfl (by simp [encode]; decide)
theorem ldReg (x y : Nibble) : Statement (.ldReg x y) :=
  inLowNibble _ _ 0x8000#16 rfl (by simp [encode]; decide)
theorem orReg (x y : Nibble) : Statement (.orReg x y) :=
  inLowNibble _ _ 0x8001#16 rfl (by simp [encode]; decide)
theorem andReg (x y : Nibble) : Statement (.andReg x y) :=
  inLowNibble _ _ 0x8002#16 rfl (by simp [encode]; decide)
theorem xorReg (x y : Nibble) : Statement (.xorReg x y) :=
  inLowNibble _ _ 0x8003#16 rfl (by simp [encode]; decide)
theorem addReg (x y : Nibble) : Statement (.addReg x y) :=
  inLowNibble _ _ 0x8004#16 rfl (by simp [encode]; decide)
theorem subReg (x y : Nibble) : Statement (.subReg x y) :=
  inLowNibble _ _ 0x8005#16 rfl (by simp [encode]; decide)
theorem shrReg (x y : Nibble) : Statement (.shrReg x y) :=
  inLowNibble _ _ 0x8006#16 rfl (by simp [encode]; decide)
theorem subnReg (x y : Nibble) : Statement (.subnReg x y) :=
  inLowNibble _ _ 0x8007#16 rfl (by simp [encode]; decide)
theorem shlReg (x y : Nibble) : Statement (.shlReg x y) :=
  inLowNibble _ _ 0x800E#16 rfl (by simp [encode]; decide)
theorem sneReg (x y ignored : Nibble) : Statement (.sneReg x y ignored) :=
  inGroup _ _ 0x9000#16 rfl (by simp [encode]; decide)
theorem ldI (nnn : Addr) : Statement (.ldI nnn) :=
  inGroup _ _ 0xA000#16 rfl (by simp [encode]; decide)
theorem jpV0 (nnn : Addr) : Statement (.jpV0 nnn) :=
  inGroup _ _ 0xB000#16 rfl (by simp [encode]; decide)
theorem rnd (x : Nibble) (nn : Byte) : Statement (.rnd x nn) :=
  inGroup _ _ 0xC000#16 rfl (by simp [encode]; decide)
theorem drw (x y n : Nibble) : Statement (.drw x y n) :=
  inGroup _ _ 0xD000#16 rfl (by simp [encode]; decide)
theorem skp (x : Nibble) : Statement (.skp x) :=
  inLowByte _ _ 0xE09E#16 rfl (by simp [encode]; decide)
theorem sknp (x : Nibble) : Statement (.sknp x) :=
  inLowByte _ _ 0xE0A1#16 rfl (by simp [encode]; decide)
theorem ldVxDt (x : Nibble) : Statement (.ldVxDt x) :=
  inLowByte _ _ 0xF007#16 rfl (by simp [encode]; decide)
theorem ldVxK (x : Nibble) : Statement (.ldVxK x) :=
  inLowByte _ _ 0xF00A#16 rfl (by simp [encode]; decide)
theorem ldDtVx (x : Nibble) : Statement (.ldDtVx x) :=
  inLowByte _ _ 0xF015#16 rfl (by simp [encode]; decide)
theorem ldStVx (x : Nibble) : Statement (.ldStVx x) :=
  inLowByte _ _ 0xF018#16 rfl (by simp [encode]; decide)
theorem addI (x : Nibble) : Statement (.addI x) :=
  inLowByte _ _ 0xF01E#16 rfl (by simp [encode]; decide)
theorem ldF (x : Nibble) : Statement (.ldF x) :=
  inLowByte _ _ 0xF029#16 rfl (by simp [encode]; decide)
theorem ldB (x : Nibble) : Statement (.ldB x) :=
  inLowByte _ _ 0xF033#16 rfl (by simp [encode]; decide)
theorem storeRegs (x : Nibble) : Statement (.storeRegs x) :=
  inLowByte _ _ 0xF055#16 rfl (by simp [encode]; decide)
theorem loadRegs (x : Nibble) : Statement (.loadRegs x) :=
  inLowByte _ _ 0xF065#16 rfl (by simp [encode]; decide)

end Sys2Proof.Laws.EncodesInItsRow
end

