-- ==== Sys2Proof/Laws/Step.lean ====
section
/-! SUPPORT. The cases of one `Step`: later proofs cite these and never unfold `step`. -/

namespace Sys2Proof.Machine

theorem step_of_halted (s : State) (h : s.status ≠ .running) : step s = .next s := by
  simp [step, State.halted, h]

theorem step_of_unknown (s : State) (e : DecodeError) (hs : s.status = .running)
    (h : decode s.fetchWord = .error e) : step s = .next s.advance := by
  simp [step, State.halted, hs, h, execUnknown]

/-- One `Step` is one of three things: nothing while halted, the unknown opcode, or the decoded instruction. -/
theorem step_cases (s : State) :
    (s.status ≠ .running ∧ step s = .next s) ∨
    (s.status = .running ∧ (∃ e, decode s.fetchWord = .error e) ∧ step s = .next s.advance) ∨
    (s.status = .running ∧ ∃ i, decode s.fetchWord = .ok i ∧ step s = exec i s) := by
  by_cases hs : s.status = .running
  · cases hd : decode s.fetchWord with
    | error e => exact .inr (.inl ⟨hs, ⟨e, rfl⟩, step_of_unknown s e hs hd⟩)
    | ok i => exact .inr (.inr ⟨hs, i, rfl, by simp [step, State.halted, hs, hd]⟩)
  · exact .inl ⟨hs, step_of_halted s hs⟩

end Sys2Proof.Machine
end

