-- ==== Sys2Proof/Tests/Slice0.lean ====
section
/-! SUPPORT. Tests: the WellFormed smoke test, a written-out word for every constructor, the spec's own vectors
(spec/95_test_vectors.md; the id or the section stands in each docstring), the host's two entry points, and for every
obligation with hypotheses a state and operands that meet them. -/

namespace Sys2Proof.Tests

open Sys2Proof.Machine

/-! ### Small states -/

/-- The vectors' configuration: FONT_BASE = 0x050; SHIFT_SRC_VY and SPRITE_WRAP as the vector says. -/
def refConfig (shiftVy wrap : Bool) : Config where
  shiftSrcVy := shiftVy
  spriteWrap := wrap
  fontBase := 0x050#12
  fontData := customaryFont
  rngSource := 0

/-- The vectors' start state. -/
def boot : State := State.resetWith (refConfig false false)
/-- The same with SHIFT_SRC_VY true. -/
def bootVy : State := State.resetWith (refConfig true false)
/-- The same with SPRITE_WRAP true. -/
def bootWrap : State := State.resetWith (refConfig false true)

/-- Preset registers. -/
def presetV (s : State) (regs : List (Nibble × Byte)) : State := regs.foldl (fun s r => s.writeV r.1 r.2) s

/-- Preset cells of the display. -/
def presetCells (s : State) (cells : List (Fin 64 × Fin 32)) : State :=
  { s with disp := cells.foldl (fun d c => flipPixel d c.1 c.2) s.disp }

/-- The state after one `Step` on the word, placed at PC. -/
def after (w : Word) (s : State) : State :=
  match step (s.placeWord w) with
  | .next t => t
  | .fault _ => s
  | .refused _ => s

/-- The state after a host operation. -/
def performed (op : HostOp) (s : State) : State :=
  match perform op s with
  | .next t => t
  | .fault _ => s
  | .refused _ => s

/-- A byte of memory as a number. -/
def peek (s : State) (a : Nat) : Nat := (s.memRead a).toNat

/-! ### WellFormed: an ill-formed term for each check -/

/-- 5XY_ with 7 in the ignored nibble is no canonical spelling (R67); with 0 it is. -/
theorem test_wellFormed_seReg :
    Instr.wellFormed (.seReg 1#4 2#4 7#4) = false ∧ Instr.wellFormed (.seReg 1#4 2#4 0#4) = true := by decide

/-- 9XY_ with 7 in the ignored nibble is no canonical spelling (R67); with 0 it is. -/
theorem test_wellFormed_sneReg :
    Instr.wellFormed (.sneReg 0xA#4 0xB#4 7#4) = false ∧ Instr.wellFormed (.sneReg 0xA#4 0xB#4 0#4) = true := by decide

/-! ### Decoding: a word for every constructor, written out from R66's patterns -/

/-- Groups 0, 1, 2, B: 0000 0000 1110 0000, 0000 0000 1110 1110, 0001 nnnn..., 0010 nnnn..., 1011 nnnn.... -/
theorem test_decode_jumps :
    decode 0b0000000011100000#16 = .ok .cls ∧ decode 0b0000000011101110#16 = .ok .ret ∧
    decode 0b0001001000110100#16 = .ok (.jp 0x234#12) ∧ decode 0b0010101010111100#16 = .ok (.call 0xABC#12) ∧
    decode 0b1011001100000000#16 = .ok (.jpV0 0x300#12) := by decide

/-- Groups 3, 4, 5, 9. -/
theorem test_decode_skips :
    decode 0b0011001100101010#16 = .ok (.seImm 3#4 0x2A#8) ∧ decode 0b0100001100101010#16 = .ok (.sneImm 3#4 0x2A#8) ∧
    decode 0b0101000100101111#16 = .ok (.seReg 1#4 2#4 0xF#4) ∧
    decode 0b1001101010110111#16 = .ok (.sneReg 0xA#4 0xB#4 7#4) := by decide

/-- Groups 6, 7, C and 8XY0 to 8XY3. -/
theorem test_decode_loads_and_bits :
    decode 0b0110101000101100#16 = .ok (.ldImm 0xA#4 0x2C#8) ∧ decode 0b0111000100100000#16 = .ok (.addImm 1#4 0x20#8) ∧
    decode 0b1100001100001111#16 = .ok (.rnd 3#4 0x0F#8) ∧
    decode 0b1000000100100000#16 = .ok (.ldReg 1#4 2#4) ∧ decode 0b1000000100100001#16 = .ok (.orReg 1#4 2#4) ∧
    decode 0b1000000100100010#16 = .ok (.andReg 1#4 2#4) ∧ decode 0b1000000100100011#16 = .ok (.xorReg 1#4 2#4) := by
  decide

/-- 8XY4 to 8XY7 and 8XYE. -/
theorem test_decode_flag_setting :
    decode 0b1000000100100100#16 = .ok (.addReg 1#4 2#4) ∧ decode 0b1000000100100101#16 = .ok (.subReg 1#4 2#4) ∧
    decode 0b1000000100100110#16 = .ok (.shrReg 1#4 2#4) ∧ decode 0b1000000100100111#16 = .ok (.subnReg 1#4 2#4) ∧
    decode 0b1000000100101110#16 = .ok (.shlReg 1#4 2#4) := by decide

/-- Group A and the memory instructions of group F. -/
theorem test_decode_index_memory :
    decode 0b1010001011110000#16 = .ok (.ldI 0x2F0#12) ∧ decode 0b1111001000011110#16 = .ok (.addI 2#4) ∧
    decode 0b1111010000101001#16 = .ok (.ldF 4#4) ∧ decode 0b1111000100110011#16 = .ok (.ldB 1#4) ∧
    decode 0b1111001001010101#16 = .ok (.storeRegs 2#4) ∧ decode 0b1111111101100101#16 = .ok (.loadRegs 0xF#4) := by
  decide

/-- Group D. -/
theorem test_decode_draw : decode 0b1101000100101010#16 = .ok (.drw 1#4 2#4 0xA#4) := by decide

/-- Group E and the keypad and timer instructions of group F. -/
theorem test_decode_keypad_timer :
    decode 0b1110010110011110#16 = .ok (.skp 5#4) ∧ decode 0b1110010110100001#16 = .ok (.sknp 5#4) ∧
    decode 0b1111001100000111#16 = .ok (.ldVxDt 3#4) ∧ decode 0b1111001000001010#16 = .ok (.ldVxK 2#4) ∧
    decode 0b1111001100010101#16 = .ok (.ldDtVx 3#4) ∧ decode 0b1111001100011000#16 = .ok (.ldStVx 3#4) := by decide

/-- Section 2.1: words that select no row. -/
theorem test_decode_unknown_group0 :
    decode 0x0000#16 = .error (.unknownOpcode 0x0000#16) ∧
    decode 0x00DF#16 = .error (.unknownOpcode 0x00DF#16) ∧
    decode 0x00E1#16 = .error (.unknownOpcode 0x00E1#16) ∧
    decode 0x00ED#16 = .error (.unknownOpcode 0x00ED#16) ∧
    decode 0x00EF#16 = .error (.unknownOpcode 0x00EF#16) ∧
    decode 0x01E0#16 = .error (.unknownOpcode 0x01E0#16) ∧
    decode 0x0FFF#16 = .error (.unknownOpcode 0x0FFF#16) := by decide

/-- Section 2.1: words that select no row. -/
theorem test_decode_unknown_groups_8_E :
    decode 0x8128#16 = .error (.unknownOpcode 0x8128#16) ∧
    decode 0x812D#16 = .error (.unknownOpcode 0x812D#16) ∧
    decode 0x812F#16 = .error (.unknownOpcode 0x812F#16) ∧
    decode 0xE19F#16 = .error (.unknownOpcode 0xE19F#16) ∧
    decode 0xE1A0#16 = .error (.unknownOpcode 0xE1A0#16) ∧
    decode 0xE100#16 = .error (.unknownOpcode 0xE100#16) := by decide

/-- Section 2.1: words that select no row. -/
theorem test_decode_unknown_group_F :
    decode 0xF100#16 = .error (.unknownOpcode 0xF100#16) ∧
    decode 0xF108#16 = .error (.unknownOpcode 0xF108#16) ∧
    decode 0xF11F#16 = .error (.unknownOpcode 0xF11F#16) ∧
    decode 0xF130#16 = .error (.unknownOpcode 0xF130#16) ∧
    decode 0xF175#16 = .error (.unknownOpcode 0xF175#16) ∧
    decode 0xF185#16 = .error (.unknownOpcode 0xF185#16) ∧
    decode 0xF1FF#16 = .error (.unknownOpcode 0xF1FF#16) := by decide

/-- The encoder gives the words above. -/
theorem test_encode :
    encode .cls = 0x00E0#16 ∧ encode (.call 0xABC#12) = 0x2ABC#16 ∧ encode (.seImm 3#4 0x2A#8) = 0x332A#16 ∧
    encode (.subnReg 1#4 2#4) = 0x8127#16 ∧ encode (.drw 1#4 2#4 0xA#4) = 0xD12A#16 ∧
    encode (.ldF 4#4) = 0xF429#16 := by decide

/-! ### The host's entry points -/

/-- Bits numbered as the table numbers them: bit 0 is the least significant bit of the one word. -/
theorem test_decodeTableWord :
    decodeTableWord 16 0xD12A = some (.drw 1#4 2#4 0xA#4) ∧ decodeTableWord 16 0x00E0 = some .cls ∧
    decodeTableWord 16 0x812F = none := by decide

/-- `step` runs the placed instruction as the first one after reset. -/
theorem test_withFetchWord :
    (State.reset.withFetchWord 16 0x6A2C).fetchWord = 0x6A2C#16 ∧
    step (State.reset.withFetchWord 16 0x6A2C) = exec (.ldImm 0xA#4 0x2C#8) (State.reset.withFetchWord 16 0x6A2C) := by
  constructor <;> rfl

/-! ### Fetch and the unknown opcode -/

/-- Section 2.1, fetch vectors: the fetch wraps at 4095. -/
theorem test_fetch_wraps :
    ((({ boot with pc := 0xFFF#16 }).memWrite 0xFFF 0x12#8).memWrite 0x000 0x34#8).fetchWord = 0x1234#16 := by decide

/-- Section 2.1: an odd PC fetches normally, and PC passes 0xFFE to 0x000. -/
theorem test_fetch_odd_and_top :
    (after 0x6107#16 { boot with pc := 0x201#16 }).pc = 0x203#16 ∧
    (after 0x6105#16 { boot with pc := 0xFFE#16 }).pc = 0x000#16 := by decide

/-- Section 2.1, the unknown opcode vector, and P6 (c)'s first step. -/
theorem test_unknown_opcode :
    (after 0x812F#16 (presetV boot [(1#4, 5#8), (2#4, 6#8)])).pc = 0x202#16 ∧
    (after 0x812F#16 (presetV boot [(1#4, 5#8), (2#4, 6#8)])).readV 1#4 = 5#8 ∧
    (after 0x812F#16 boot).status = .running ∧
    stepReport (boot.placeWord 0x812F#16) = some (.unknownOpcode 0x812F#16 0x200#16) ∧
    stepReport boot = some (.unknownOpcode 0x0000#16 0x200#16) := by decide

/-! ### Control flow (section 2.2) -/

theorem test_jp : (after 0x1FFF#16 boot).pc = 0xFFF#16 ∧ after 0x1200#16 boot = boot.placeWord 0x1200#16 := by
  constructor <;> rfl

/-- SP = 0 and SP = 15. -/
theorem test_call :
    (after 0x2ABC#16 boot).stack[0] = 0x0200#16 ∧ (after 0x2ABC#16 boot).sp = 1 ∧
    (after 0x2ABC#16 boot).pc = 0xABC#16 ∧ (after 0x2ABC#16 { boot with sp := 15 }).stack[15] = 0x0200#16 ∧
    (after 0x2ABC#16 { boot with sp := 15 }).sp = 16 := by decide

/-- SP = 16: StackOverflow. -/
theorem test_call_overflow :
    (after 0x2ABC#16 { boot with sp := 16 }).status = .stackOverflow ∧
    (after 0x2ABC#16 { boot with sp := 16 }).sp = 16 ∧ (after 0x2ABC#16 { boot with sp := 16 }).pc = 0x200#16 ∧
    stepReport ({ boot with sp := 16 }.placeWord 0x2ABC#16) = some (.stackOverflow 0x200#16 0x2ABC#16) := by decide

/-- SP = 2 with Stack[1] = 0x0FFE: the return wraps to 0x000 and the entry stays. -/
theorem test_ret :
    (after 0x00EE#16 { boot with sp := 2, stack := boot.stack.set 1 0x0FFE#16 }).pc = 0x000#16 ∧
    (after 0x00EE#16 { boot with sp := 2, stack := boot.stack.set 1 0x0FFE#16 }).sp = 1 ∧
    (after 0x00EE#16 { boot with sp := 2, stack := boot.stack.set 1 0x0FFE#16 }).stack[1] = 0x0FFE#16 := by decide

/-- SP = 0: StackUnderflow; the next `Step` changes nothing. -/
theorem test_ret_underflow :
    (after 0x00EE#16 boot).status = .stackUnderflow ∧ (after 0x00EE#16 boot).sp = 0 ∧
    (after 0x00EE#16 boot).pc = 0x200#16 ∧ step (after 0x00EE#16 boot) = .next (after 0x00EE#16 boot) := by
  refine ⟨rfl, rfl, rfl, rfl⟩

theorem test_seImm :
    (after 0x332A#16 (presetV boot [(3#4, 0x2A#8)])).pc = 0x204#16 ∧
    (after 0x332A#16 (presetV boot [(3#4, 0x2B#8)])).pc = 0x202#16 ∧
    (after 0x3F01#16 (presetV { boot with pc := 0xFFE#16 } [(0xF#4, 1#8)])).pc = 0x002#16 := by decide

theorem test_sneImm :
    (after 0x432A#16 (presetV boot [(3#4, 0x2A#8)])).pc = 0x202#16 ∧
    (after 0x432A#16 (presetV boot [(3#4, 0x2B#8)])).pc = 0x204#16 := by decide

theorem test_seReg :
    (after 0x5120#16 (presetV boot [(1#4, 7#8), (2#4, 7#8)])).pc = 0x204#16 ∧
    (after 0x512F#16 (presetV boot [(1#4, 7#8), (2#4, 8#8)])).pc = 0x202#16 ∧ (after 0x5110#16 boot).pc = 0x204#16 := by
  decide

theorem test_sneReg :
    (after 0x9120#16 (presetV boot [(1#4, 7#8), (2#4, 8#8)])).pc = 0x204#16 ∧
    (after 0x9127#16 (presetV boot [(1#4, 7#8), (2#4, 7#8)])).pc = 0x202#16 := by decide

theorem test_jpV0 :
    (after 0xB300#16 (presetV boot [(0#4, 0x04#8)])).pc = 0x304#16 ∧
    (after 0xBFFF#16 (presetV boot [(0#4, 0xFF#8)])).pc = 0x0FE#16 ∧ (after 0xB201#16 boot).pc = 0x201#16 := by decide

/-! ### Load, ALU, random (section 2.3) -/

theorem test_ldImm : (after 0x6A2C#16 boot).readV 0xA#4 = 0x2C#8 ∧ (after 0x6F07#16 boot).readV 0xF#4 = 0x07#8 := by decide

theorem test_addImm :
    (after 0x7120#16 (presetV boot [(1#4, 0xF0#8)])).readV 1#4 = 0x10#8 ∧
    (after 0x7101#16 (presetV boot [(1#4, 0xFF#8)])).readV 0xF#4 = 0x00#8 := by decide

theorem test_ldReg : (after 0x8120#16 (presetV boot [(2#4, 0x5A#8)])).readV 1#4 = 0x5A#8 := by decide

theorem test_orReg :
    (after 0x8121#16 (presetV boot [(1#4, 0xF0#8), (2#4, 0x0F#8), (0xF#4, 1#8)])).readV 1#4 = 0xFF#8 ∧
    (after 0x8121#16 (presetV boot [(1#4, 0xF0#8), (2#4, 0x0F#8), (0xF#4, 1#8)])).readV 0xF#4 = 1#8 := by decide

theorem test_andReg : (after 0x8122#16 (presetV boot [(1#4, 0xFC#8), (2#4, 0x3F#8)])).readV 1#4 = 0x3C#8 := by decide

theorem test_xorReg :
    (after 0x8123#16 (presetV boot [(1#4, 0xFF#8), (2#4, 0x0F#8)])).readV 1#4 = 0xF0#8 ∧
    (after 0x8113#16 (presetV boot [(1#4, 0xA7#8)])).readV 1#4 = 0x00#8 := by decide

/-- S3, S4 and 8124 with two 0xFF. -/
theorem test_addReg :
    (after 0x8124#16 (presetV boot [(1#4, 0xFF#8), (2#4, 0x01#8)])).readV 1#4 = 0x00#8 ∧
    (after 0x8124#16 (presetV boot [(1#4, 0xFF#8), (2#4, 0x01#8)])).readV 0xF#4 = 1#8 ∧
    (after 0x8124#16 (presetV boot [(1#4, 0x01#8), (2#4, 0x01#8)])).readV 0xF#4 = 0#8 := by decide

/-- X = F keeps the sum; Y = F adds the old VF. -/
theorem test_addReg_vf :
    (after 0x8F14#16 (presetV boot [(0xF#4, 0xF0#8), (1#4, 0x20#8)])).readV 0xF#4 = 0x10#8 ∧
    (after 0x81F4#16 (presetV boot [(1#4, 0xFF#8), (0xF#4, 0x01#8)])).readV 1#4 = 0x00#8 ∧
    (after 0x81F4#16 (presetV boot [(1#4, 0xFF#8), (0xF#4, 0x01#8)])).readV 0xF#4 = 1#8 := by decide

/-- S5 and S6: equality is no borrow. -/
theorem test_subReg :
    (after 0x8125#16 (presetV boot [(1#4, 0x05#8), (2#4, 0x05#8)])).readV 0xF#4 = 1#8 ∧
    (after 0x8125#16 (presetV boot [(1#4, 0x01#8), (2#4, 0x02#8)])).readV 1#4 = 0xFF#8 ∧
    (after 0x8125#16 (presetV boot [(1#4, 0x01#8), (2#4, 0x02#8)])).readV 0xF#4 = 0#8 := by decide

theorem test_subReg_vf :
    (after 0x8F15#16 (presetV boot [(0xF#4, 0x10#8), (1#4, 0x01#8)])).readV 0xF#4 = 0x0F#8 ∧
    (after 0x81F5#16 (presetV boot [(1#4, 0x05#8), (0xF#4, 0x07#8)])).readV 1#4 = 0xFE#8 ∧
    (after 0x8FF5#16 (presetV boot [(0xF#4, 0x09#8)])).readV 0xF#4 = 0x00#8 := by decide

theorem test_subnReg :
    (after 0x8127#16 (presetV boot [(1#4, 0x02#8), (2#4, 0x05#8)])).readV 1#4 = 0x03#8 ∧
    (after 0x8127#16 (presetV boot [(1#4, 0x05#8), (2#4, 0x02#8)])).readV 1#4 = 0xFD#8 ∧
    (after 0x8127#16 (presetV boot [(1#4, 0x05#8), (2#4, 0x05#8)])).readV 0xF#4 = 1#8 := by decide

theorem test_subnReg_vf :
    (after 0x8F17#16 (presetV boot [(0xF#4, 0x01#8), (1#4, 0x10#8)])).readV 0xF#4 = 0x0F#8 ∧
    (after 0x81F7#16 (presetV boot [(1#4, 0x03#8), (0xF#4, 0x02#8)])).readV 0xF#4 = 0#8 := by decide

/-- 8126 under both settings of SHIFT_SRC_VY. -/
theorem test_shrReg :
    (after 0x8126#16 (presetV boot [(1#4, 0x05#8), (2#4, 0x08#8)])).readV 1#4 = 0x02#8 ∧
    (after 0x8126#16 (presetV boot [(1#4, 0x05#8), (2#4, 0x08#8)])).readV 0xF#4 = 1#8 ∧
    (after 0x8126#16 (presetV bootVy [(1#4, 0x05#8), (2#4, 0x08#8)])).readV 1#4 = 0x04#8 ∧
    (after 0x8126#16 (presetV bootVy [(1#4, 0x05#8), (2#4, 0x08#8)])).readV 0xF#4 = 0#8 := by decide

theorem test_shrReg_vf :
    (after 0x8F26#16 (presetV boot [(0xF#4, 0x03#8), (2#4, 0x06#8)])).readV 0xF#4 = 0x01#8 ∧
    (after 0x81F6#16 (presetV bootVy [(1#4, 0x04#8), (0xF#4, 0x03#8)])).readV 1#4 = 0x01#8 := by decide

/-- 812E under both settings of SHIFT_SRC_VY. -/
theorem test_shlReg :
    (after 0x812E#16 (presetV boot [(1#4, 0x81#8), (2#4, 0x40#8)])).readV 1#4 = 0x02#8 ∧
    (after 0x812E#16 (presetV boot [(1#4, 0x81#8), (2#4, 0x40#8)])).readV 0xF#4 = 1#8 ∧
    (after 0x812E#16 (presetV bootVy [(1#4, 0x81#8), (2#4, 0x40#8)])).readV 1#4 = 0x80#8 ∧
    (after 0x812E#16 (presetV bootVy [(1#4, 0x81#8), (2#4, 0x40#8)])).readV 0xF#4 = 0#8 := by decide

theorem test_shlReg_vf :
    (after 0x8F2E#16 (presetV boot [(0xF#4, 0xC0#8), (2#4, 0x01#8)])).readV 0xF#4 = 0x80#8 ∧
    (after 0x8F2E#16 (presetV bootVy [(0xF#4, 0xC0#8), (2#4, 0x01#8)])).readV 0xF#4 = 0x02#8 := by decide

/-- C300 gives 0 whatever the byte is, and consumes one. -/
theorem test_rnd : (after 0xC300#16 boot).readV 3#4 = 0#8 ∧ (after 0xC300#16 boot).rngCount = 1 := by
  refine ⟨?_, rfl⟩
  show Config.rngByte 0 0 &&& 0#8 = 0#8
  simp

/-! ### Index and memory (section 2.4) -/

theorem test_ldI : (after 0xA2F0#16 boot).i = 0x02F0#16 ∧ (after 0xAFFF#16 boot).i = 0x0FFF#16 := by decide

theorem test_addI :
    (after 0xF21E#16 (presetV { boot with i := 0x0FFF#16 } [(2#4, 0x01#8)])).i = 0x1000#16 ∧
    (after 0xF21E#16 (presetV { boot with i := 0xFFFF#16 } [(2#4, 0x02#8)])).i = 0x0001#16 ∧
    (after 0xF21E#16 (presetV { boot with i := 0xFFFF#16 } [(2#4, 0x02#8)])).readV 0xF#4 = 0#8 := by decide

theorem test_ldF :
    (after 0xF429#16 (presetV boot [(4#4, 0x0A#8)])).i = 0x0082#16 ∧
    (after 0xF429#16 (presetV boot [(4#4, 0x0F#8)])).i = 0x009B#16 ∧
    (after 0xF429#16 (presetV boot [(4#4, 0x1A#8)])).i = 0x0082#16 := by decide

/-- V1 = 234 at I = 0x0FFE: the block wraps. -/
theorem test_ldB :
    (peek (after 0xF133#16 (presetV { boot with i := 0x0FFE#16 } [(1#4, 234#8)])) 0xFFE,
     peek (after 0xF133#16 (presetV { boot with i := 0x0FFE#16 } [(1#4, 234#8)])) 0xFFF,
     peek (after 0xF133#16 (presetV { boot with i := 0x0FFE#16 } [(1#4, 234#8)])) 0x000) = (2, 3, 4) := by decide

/-- V1 = 99 and V1 = 255. -/
theorem test_ldB_digits :
    bcdDigits 99#8 = [0#8, 9#8, 9#8] ∧ bcdDigits 255#8 = [2#8, 5#8, 5#8] ∧ bcdDigits 100#8 = [1#8, 0#8, 0#8] := by decide

/-- F255 at I = 0x1300: I is masked at the access, and keeps its value. -/
theorem test_storeRegs :
    (peek (after 0xF255#16 (presetV { boot with i := 0x1300#16 } [(0#4, 0x11#8), (1#4, 0x22#8), (2#4, 0x33#8), (3#4, 0x44#8)])) 0x300,
     peek (after 0xF255#16 (presetV { boot with i := 0x1300#16 } [(0#4, 0x11#8), (1#4, 0x22#8), (2#4, 0x33#8), (3#4, 0x44#8)])) 0x302,
     peek (after 0xF255#16 (presetV { boot with i := 0x1300#16 } [(0#4, 0x11#8), (1#4, 0x22#8), (2#4, 0x33#8), (3#4, 0x44#8)])) 0x303) =
      (0x11, 0x33, 0x00) ∧ (after 0xF255#16 { boot with i := 0x1300#16 }).i = 0x1300#16 := by decide

/-- FF65 on the font: all 16 registers. -/
theorem test_loadRegs_font :
    (List.range 16).map (fun k => ((after 0xFF65#16 { boot with i := 0x0050#16 }).readV (BitVec.ofNat 4 k)).toNat) =
      [0xF0, 0x90, 0x90, 0x90, 0xF0, 0x20, 0x60, 0x20, 0x20, 0x70, 0xF0, 0x10, 0xF0, 0x80, 0xF0, 0xF0] := by decide

/-- F165 leaves V2 alone. -/
theorem test_loadRegs :
    ((after 0xF165#16 (presetV ((({ boot with i := 0x0300#16 }).memWrite 0x300 0xAA#8).memWrite 0x301 0xBB#8) [(2#4, 0x99#8)])).readV 1#4,
     (after 0xF165#16 (presetV ((({ boot with i := 0x0300#16 }).memWrite 0x300 0xAA#8).memWrite 0x301 0xBB#8) [(2#4, 0x99#8)])).readV 2#4) =
      (0xBB#8, 0x99#8) := by decide

/-! ### Display (section 2.5) -/

/-- I = 0x300, one sprite byte there, V0 and V1 the origin. -/
def drawState (s : State) (b v0 v1 : Byte) : State :=
  presetV (({ s with i := 0x0300#16 }).memWrite 0x300 b) [(0#4, v0), (1#4, v1)]

/-- The cells that are on, of those asked for. -/
def lit (s : State) (cells : List (Fin 64 × Fin 32)) : List Bool := cells.map fun c => pixel s.disp c.1 c.2

theorem test_cls :
    lit (after 0x00E0#16 (presetV (presetCells boot [(0, 0), (63, 31)]) [(0xF#4, 1#8)])) [(0, 0), (63, 31)] =
      [false, false] ∧
    (after 0x00E0#16 (presetV boot [(0xF#4, 1#8)])).dirty = true ∧
    (after 0x00E0#16 (presetV boot [(0xF#4, 1#8)])).readV 0xF#4 = 1#8 := by decide

/-- Bit 7 is leftmost and bit 0 is 7 columns to the right; 60 to 63 are drawn and the rest clipped, or wrapped. -/
theorem test_drw_edges :
    lit (after 0xD011#16 (drawState boot 0x01#8 0#8 0#8)) [(0, 0), (7, 0)] = [false, true] ∧
    lit (after 0xD011#16 (drawState boot 0xFF#8 60#8 0#8)) [(59, 0), (60, 0), (63, 0), (0, 0), (3, 0)] =
      [false, true, true, false, false] ∧
    lit (after 0xD011#16 (drawState bootWrap 0xFF#8 60#8 0#8)) [(60, 0), (63, 0), (0, 0), (3, 0), (4, 0)] =
      [true, true, true, true, false] ∧
    lit (after 0xD011#16 (drawState boot 0x80#8 0xFF#8 0xFF#8)) [(63, 31)] = [true] := by decide +kernel

/-- Only a set bit collides; DFF1 takes the origin from the old VF; D010 draws nothing and sets dirty. -/
theorem test_drw_flag :
    (after 0xD011#16 (presetCells (drawState boot 0xF0#8 0#8 0#8) [(3, 0)])).readV 0xF#4 = 1#8 ∧
    lit (after 0xD011#16 (presetCells (drawState boot 0xF0#8 0#8 0#8) [(3, 0)])) [(2, 0), (3, 0)] = [true, false] ∧
    (after 0xD011#16 (presetCells (drawState boot 0x0F#8 0#8 0#8) [(3, 0)])).readV 0xF#4 = 0#8 ∧
    lit (after 0xDFF1#16 (presetV (drawState boot 0x80#8 0#8 0#8) [(0xF#4, 5#8)])) [(5, 5)] = [true] ∧
    ((after 0xD010#16 (presetV boot [(0xF#4, 1#8)])).readV 0xF#4, (after 0xD010#16 boot).dirty) = (0#8, true) := by
  decide +kernel

/-! ### Keypad and timers (section 2.6) -/

theorem test_skp :
    (after 0xE59E#16 (presetV (setKey 7 true boot) [(5#4, 0x17#8)])).pc = 0x204#16 ∧
    (after 0xE59E#16 (presetV boot [(5#4, 0x07#8)])).pc = 0x202#16 := by decide

theorem test_sknp :
    (after 0xE5A1#16 (presetV (setKey 7 true boot) [(5#4, 0x07#8)])).pc = 0x202#16 ∧
    (after 0xE5A1#16 (presetV boot [(5#4, 0x07#8)])).pc = 0x204#16 := by decide

theorem test_ldVxDt : (after 0xF307#16 { boot with dt := 0x3C#8 }).readV 3#4 = 0x3C#8 := by decide

theorem test_ldDtVx : (after 0xF315#16 (presetV boot [(3#4, 60#8)])).dt = 60#8 := by decide

theorem test_ldStVx : (after 0xF318#16 (presetV boot [(3#4, 5#8)])).st = 5#8 := by decide

/-- S10 and keys 3 and 0xC: the lowest wins. -/
theorem test_ldVxK :
    after 0xF20A#16 boot = boot.placeWord 0xF20A#16 ∧
    (after 0xF20A#16 (setKey 0xC true (setKey 3 true boot))).readV 2#4 = 0x03#8 ∧
    (after 0xF20A#16 (setKey 0 true boot)).pc = 0x202#16 := by
  refine ⟨rfl, ?_, ?_⟩ <;> decide

theorem test_tick :
    ((tick { boot with dt := 1#8, st := 1#8 }).1.dt, (tick { boot with dt := 1#8, st := 1#8 }).1.st,
     (tick { boot with dt := 1#8, st := 1#8 }).2) = (0#8, 0#8, false) ∧
    ((tick { boot with dt := 255#8, st := 2#8 }).1.dt, (tick { boot with dt := 255#8, st := 2#8 }).1.st,
     (tick { boot with dt := 255#8, st := 2#8 }).2) = (254#8, 1#8, true) ∧
    ((tick boot).1.dt, (tick boot).2) = (0#8, false) := by decide

/-- `SetKey(16, true)` and `SetKey(-1, true)` change nothing; 0 and 15 are keys. -/
theorem test_setKey :
    setKey 16 true boot = boot ∧ setKey (-1) true boot = boot ∧ (setKey 15 true boot).keyDown 15#4 = true ∧
    (setKey 15 false (setKey 15 true boot)).keyDown 15#4 = false ∧ (setKey 0 true boot).keyDown 0#4 = true := by
  refine ⟨rfl, rfl, ?_, ?_, ?_⟩ <;> decide

/-- `ClearDirty`, and `Tick` while halted. -/
theorem test_clearDirty_and_halted_tick :
    (performed .clearDirty { boot with dirty := true }).dirty = false ∧
    (performed .tick { boot with status := .stackOverflow, dt := 4#8 }).dt = 3#8 := by decide

/-! ### Reset and program load -/

/-- S12: the font is at FONT_BASE, the byte before and the byte after it are 0. -/
theorem test_reset_memory :
    (peek boot 0x04F, peek boot 0x050, peek boot 0x09F, peek boot 0x0A0, peek boot 0x200) = (0, 0xF0, 0x80, 0, 0) := by
  decide

/-- S11: 3585 bytes are refused with RomTooLarge. -/
theorem test_loadProgram_tooLarge (bytes : List Byte) (h : bytes.length = 3585) :
    perform (.loadProgram bytes) boot = .fault .romTooLarge := by
  simp [perform, loadProgram, boot, State.resetWith, h]

/-- A short program is loaded at 0x200. -/
theorem test_loadProgram : (performed (.loadProgram [0x22#8, 0x00#8]) boot).fetchWord = 0x2200#16 := by
  have h : perform (.loadProgram [0x22#8, 0x00#8]) boot = .next (boot.memWriteBlock 0x200 [0x22#8, 0x00#8]) := by
    simp [perform, loadProgram, boot, State.resetWith]
  rw [performed, h]
  decide

/-- Not right after `Reset`: refused. -/
theorem test_loadProgram_late :
    perform (.loadProgram []) { boot with pc := 0x202#16 } = .refused .loadOutsideReset := by
  simp [perform, loadProgram, boot, State.resetWith]

/-! ### Witnesses: for every obligation with hypotheses a state and operands that meet them all, at the boundaries -/

/-- A word on which the machine stands, running. -/
def standing (w : Word) (s : State) : State := s.placeWord w

/-- DecodeThenEncodeGivesWord. -/
theorem test_witness_decodes : decode 0xD12A#16 = .ok (.drw 1#4 2#4 0xA#4) := by decide

/-- DecodeSelectsTheMatchingRow: a word of the first row, of the last row, and of no row. -/
theorem test_witness_rows :
    matchesRow 0x00E0#16 0 = true ∧ matchesRow 0xF165#16 33 = true ∧ matchesRow 0xF165#16 32 = false ∧
    (List.finRange 34).all (fun k => matchesRow 0x812F#16 k == false) = true := by decide

/-- StepRunsTheDecodedInstruction; PcAdvancesByTwo; the last clause of StepReportsOnlyTheThreeConditions. -/
theorem test_witness_standing :
    (standing 0x6A2C#16 boot).status = .running ∧
    decode (standing 0x6A2C#16 boot).fetchWord = .ok (.ldImm 0xA#4 0x2C#8) ∧
    redirects (.ldImm 0xA#4 0x2C#8) = false ∧
    step (standing 0x6A2C#16 boot) = .next ((standing 0x6A2C#16 boot).writeV 0xA#4 0x2C#8).advance := by
  refine ⟨rfl, ?_, rfl, rfl⟩; decide

/-- UnknownOpcodeIsSkipped: at the bottom and at the top of the address space. -/
theorem test_witness_unknown :
    (boot.status = .running ∧ decode boot.fetchWord = .error (.unknownOpcode 0x0000#16)) ∧
    ((standing 0xF1FF#16 { boot with pc := 0xFFF#16 }).status = .running ∧
      decode (standing 0xF1FF#16 { boot with pc := 0xFFF#16 }).fetchWord = .error (.unknownOpcode 0xF1FF#16)) := by
  decide

/-- HaltedStepDoesNothing: both faults. -/
theorem test_witness_halted :
    ({ boot with status := .stackOverflow } : State).status ≠ .running ∧
    ({ boot with status := .stackUnderflow } : State).status ≠ .running := by decide

/-- StepReportsOnlyTheThreeConditions, CallPushesItsOwnAddress: CALL below, at the last free entry, and full. -/
theorem test_witness_call :
    decode (standing 0x2ABC#16 { boot with sp := 16 }).fetchWord = .ok (.call 0xABC#12) ∧
    ({ boot with sp := 15 } : State).sp.val < 16 ∧ ({ boot with sp := 16 } : State).sp.val = 16 ∧
    stepReport (standing 0x2ABC#16 { boot with sp := 15 }) = none := by decide

/-- StepReportsOnlyTheThreeConditions, RetReturnsPastTheCall: RET with SP = 16, 1 and 0. -/
theorem test_witness_ret :
    decode (standing 0x00EE#16 boot).fetchWord = .ok .ret ∧
    ({ boot with sp := 16 } : State).sp.val = (15 : Fin 16).val + 1 ∧
    ({ boot with sp := 1 } : State).sp.val = (0 : Fin 16).val + 1 ∧ boot.sp.val = 0 ∧
    stepReport (standing 0x00EE#16 { boot with sp := 1 }) = none := by decide

/-- FaultReportRepeats. -/
theorem test_witness_fault :
    (standing 0x00EE#16 boot).status = .running ∧
    step (standing 0x00EE#16 boot) = .next ((standing 0x00EE#16 boot).setStatus .stackUnderflow) ∧
    ((standing 0x00EE#16 boot).setStatus .stackUnderflow).status ≠ .running := by
  refine ⟨rfl, rfl, ?_⟩; decide

/-- ResetLeavesTheStatedValues, ResetWorksInAnyState, InvHoldsAtReset: FONT_BASE 432 is the last legal one. -/
theorem test_witness_legal :
    (refConfig false false).legal ∧ ({ refConfig true true with fontBase := 432#12 } : Config).legal ∧
    ¬ ({ refConfig true true with fontBase := 433#12 } : Config).legal := by decide

/-- ResetLeavesTheStatedValues: the clauses about memory meet at the ends of the font, also with FONT_BASE 0 and 432. -/
theorem test_witness_font_ends :
    peek (State.resetWith { refConfig false false with fontBase := 0#12 }) 0x000 = 0xF0 ∧
    peek (State.resetWith { refConfig false false with fontBase := 0#12 }) 0x04F = 0x80 ∧
    peek (State.resetWith { refConfig false false with fontBase := 0#12 }) 0x050 = 0 ∧
    peek (State.resetWith { refConfig false false with fontBase := 432#12 }) 0x1AF = 0 ∧
    peek (State.resetWith { refConfig false false with fontBase := 432#12 }) 0x1FF = 0x80 := by decide

/-- LoadProgramCopiesOrStops: lengths 3584 and 3585, and a state that is not the reset state. -/
theorem test_witness_load :
    (List.replicate 3584 (0#8 : Byte)).length ≤ 3584 ∧ 3584 < (List.replicate 3585 (0#8 : Byte)).length ∧
    ({ boot with pc := 0x202#16 } : State) ≠ State.resetWith ({ boot with pc := 0x202#16 } : State).cfg := by
  refine ⟨Nat.le_of_eq List.length_replicate, Nat.lt_of_lt_of_eq (Nat.lt_succ_self 3584) List.length_replicate.symm,
    fun h => absurd (congrArg State.pc h) (by decide)⟩

/-- StepKeepsInv: a state with the invariant, listing a cell, and its step. -/
theorem test_witness_inv :
    (boot.memWrite 0x200 0x6A#8).Inv ∧
    step (boot.memWrite 0x200 0x6A#8) = .next ((boot.memWrite 0x200 0x6A#8).writeV 0xA#4 0x00#8).advance := by
  refine ⟨⟨by decide, fun k => ?_, boot.memWrite_wf _ _ (Memory.wf_nil _), by decide⟩, rfl⟩
  show ((Vector.replicate 16 0x0000#16)[k]).toNat < 4096
  simp

/-- ReachableStatesKeepBounds. -/
theorem test_witness_reachable : Reachable (performed .tick boot) :=
  .op boot _ .tick (.reset (refConfig false false) (by decide)) rfl

/-- SetKeyWritesOneKey: the indices around both ends of the keypad, and which key each names. -/
theorem test_witness_key_index :
    ((-1 : Int) < 0) ∧ ((0#4 : Nibble).toNat : Int) = 0 ∧ ((15#4 : Nibble).toNat : Int) = 15 ∧ ((15 : Int) < 16) := by decide

/-- MemoryReadsWhatWasWritten: 0x1234 is the index 0x234, 0x235 is another; 0 and 4096 are one index. -/
theorem test_witness_mask :
    0x1234 % 4096 = 0x234 % 4096 ∧ 0x235 % 4096 ≠ 0x234 % 4096 ∧ 4096 % 4096 = 0 % 4096 ∧ 4095 % 4096 ≠ 4096 % 4096 := by
  decide

/-- CallThenRetComesBack. -/
theorem test_witness_call_then_ret : ({ boot with sp := 15 } : State).sp.val < 16 := by decide

/-- AddRegisterWithCarry, SubtractsWithBorrow, ShiftsByOne: X = E and X = F stand on both sides of `x ≠ regF`, and the
shift source is V[X] or V[Y]. -/
theorem test_witness_flag_operands :
    (0xE#4 : Nibble) ≠ regF ∧ ¬ (0xF#4 : Nibble) ≠ regF ∧
    5#8 = (if (presetV boot [(1#4, 5#8), (2#4, 8#8)]).cfg.shiftSrcVy = true
      then (presetV boot [(1#4, 5#8), (2#4, 8#8)]).readV 2#4 else (presetV boot [(1#4, 5#8), (2#4, 8#8)]).readV 1#4) ∧
    8#8 = (if (presetV bootVy [(1#4, 5#8), (2#4, 8#8)]).cfg.shiftSrcVy = true
      then (presetV bootVy [(1#4, 5#8), (2#4, 8#8)]).readV 2#4
      else (presetV bootVy [(1#4, 5#8), (2#4, 8#8)]).readV 1#4) := by decide

/-- StoreBcdDigits, StoreRegisterBlock, LoadRegisterBlock: addresses outside and inside a block that wraps, and X = 0, F. -/
theorem test_witness_blocks :
    (0xFFD % 4096 ≠ (0x0FFE + 0) % 4096 ∧ 0xFFD % 4096 ≠ (0x0FFE + 1) % 4096 ∧ 0xFFD % 4096 ≠ (0x0FFE + 2) % 4096) ∧
    0x000 % 4096 = (0x0FFE + 2) % 4096 ∧ 0x001 % 4096 ≠ (0x0FFE + 2) % 4096 ∧
    (0#4 : Nibble).toNat ≤ (0#4 : Nibble).toNat ∧ ¬ (1#4 : Nibble).toNat ≤ (0#4 : Nibble).toNat ∧
    (15#4 : Nibble).toNat ≤ (15#4 : Nibble).toNat := by decide

/-- DrawIsItsClosedForm: the corner cell is covered, its neighbour is not; clipped, (0,0) is not covered, wrapped it is. -/
theorem test_witness_covers :
    SpriteCovers (drawState boot 0xC0#8 63#8 31#8) 0#4 1#4 1#4 63 31 ∧
    ¬ SpriteCovers (drawState boot 0xC0#8 63#8 31#8) 0#4 1#4 1#4 0 31 ∧
    SpriteCovers (drawState bootWrap 0xC0#8 63#8 31#8) 0#4 1#4 1#4 0 31 := by
  refine ⟨⟨0, 0, by decide, by decide, by decide, by decide⟩, ?_, ⟨0, 1, by decide, by decide, by decide, by decide⟩⟩
  rintro ⟨r, c, _, _, _, h⟩
  have h : 63 + c = 0 ∧ 31 + r = 31 := h
  omega

/-- DrawIsItsClosedForm: a collision, and a sprite of no rows, which has none. -/
theorem test_witness_collision :
    (∃ cx cy, pixel (presetCells (drawState boot 0x80#8 63#8 31#8) [(63, 31)]).disp cx cy = true ∧
      SpriteCovers (presetCells (drawState boot 0x80#8 63#8 31#8) [(63, 31)]) 0#4 1#4 1#4 cx cy) ∧
    ¬ ∃ cx cy, pixel boot.disp cx cy = true ∧ SpriteCovers boot 0#4 1#4 0#4 cx cy := by
  refine ⟨⟨63, 31, by decide, 0, 0, by decide, by decide, by decide, by decide⟩, ?_⟩
  rintro ⟨_, _, _, r, _, h, _⟩
  have h : r < 0 := h
  omega

/-- DrawTwiceRestores: the draw leaves both origin registers, on a clear background. -/
theorem test_witness_double_draw :
    (after 0xD011#16 (drawState boot 0x80#8 63#8 31#8)).readV 0#4 = (drawState boot 0x80#8 63#8 31#8).readV 0#4 ∧
    (after 0xD011#16 (drawState boot 0x80#8 63#8 31#8)).readV 1#4 = (drawState boot 0x80#8 63#8 31#8).readV 1#4 ∧
    (drawState boot 0x80#8 63#8 31#8).disp = blankDisplay := by
  refine ⟨by decide, by decide, rfl⟩

/-- KeySkips: V[X] = 0x1F asks for key F, 0x10 for key 0. -/
theorem test_witness_key_skip :
    (15#4 : Nibble).toNat = ((presetV boot [(5#4, 0x1F#8)]).readV 5#4).toNat % 16 ∧
    (0#4 : Nibble).toNat = ((presetV boot [(5#4, 0x10#8)]).readV 5#4).toNat % 16 := by decide

/-- WaitForKeyTakesTheLowest: only key F pressed, key 0 pressed, no key pressed. -/
theorem test_witness_wait :
    ((setKey 15 true boot).keyDown 15#4 = true ∧
      ∀ j : Nibble, j.toNat < (15#4 : Nibble).toNat → (setKey 15 true boot).keyDown j = false) ∧
    ((setKey 0 true boot).keyDown 0#4 = true ∧
      ∀ j : Nibble, j.toNat < (0#4 : Nibble).toNat → (setKey 0 true boot).keyDown j = false) ∧
    ∀ k : Nibble, boot.keyDown k = false := by
  refine ⟨⟨by decide, fun j h => ?_⟩, ⟨by decide, fun j h => ?_⟩, fun k => ?_⟩
  · have hj : ∀ n : Fin 16, n.val < 15 → (setKey 15 true boot).keyDown (BitVec.ofFin n) = false := by decide
    exact hj j.toFin h
  · have h : j.toNat < 0 := h
    omega
  · have hk : ∀ n : Fin 16, boot.keyDown (BitVec.ofFin n) = false := by decide
    exact hk k.toFin

/-- OnlyStoresWriteMemory, OnlyClsAndDrwTouchTheDisplay, OnlyCallAndRetTouchTheStack, StepKeepsKeysAndTimers,
OnlyRndConsumesRandomBytes, OnlyThreeInstructionsWriteI: a step of each instruction they name. -/
theorem test_witness_steps :
    (∃ t, step (standing 0xF133#16 boot) = .next t) ∧ (∃ t, step (standing 0xFF55#16 boot) = .next t) ∧
    (∃ t, step (standing 0x00E0#16 boot) = .next t) ∧ (∃ t, step (standing 0xD011#16 boot) = .next t) ∧
    (∃ t, step (standing 0x2ABC#16 { boot with sp := 16 }) = .next t) ∧ (∃ t, step (standing 0x00EE#16 boot) = .next t) ∧
    (∃ t, step (standing 0xF315#16 boot) = .next t) ∧ (∃ t, step (standing 0xF318#16 boot) = .next t) ∧
    (∃ t, step (standing 0xC300#16 boot) = .next t) ∧ (∃ t, step (standing 0xF21E#16 boot) = .next t) :=
  ⟨⟨_, rfl⟩, ⟨_, rfl⟩, ⟨_, rfl⟩, ⟨_, rfl⟩, ⟨_, rfl⟩, ⟨_, rfl⟩, ⟨_, rfl⟩, ⟨_, rfl⟩, ⟨_, rfl⟩, ⟨_, rfl⟩⟩

/-- OnlyFlagInstructionsWriteVf: a step that changes VF. -/
theorem test_witness_vf :
    step (standing 0x6F07#16 boot) = .next ((standing 0x6F07#16 boot).writeV regF 0x07#8).advance ∧
    ((standing 0x6F07#16 boot).writeV regF 0x07#8).advance.readV regF ≠ (standing 0x6F07#16 boot).readV regF := by
  refine ⟨rfl, by decide⟩

/-- HighIndexBitsAreUnobservable: I = 0x0300 and I = 0xF300. -/
theorem test_witness_index_bits :
    (0xF300#16 : Word).toNat % 4096 = (standing 0xF165#16 { boot with i := 0x0300#16 }).i.toNat % 4096 ∧
    ∃ t, step (standing 0xF165#16 { boot with i := 0x0300#16 }) = .next t :=
  ⟨by decide, _, rfl⟩

/-- DeadStackEntriesAreUnobservable: SP = 1, and stacks that differ from entry 1 on. -/
theorem test_witness_dead_stack :
    (∀ k : Fin 16, k.val < (standing 0x00EE#16 { boot with sp := 1 }).sp.val →
      (boot.stack.set 1 0x0456#16)[k] = (standing 0x00EE#16 { boot with sp := 1 }).stack[k]) ∧
    ∃ t, step (standing 0x00EE#16 { boot with sp := 1 }) = .next t :=
  ⟨by decide, _, rfl⟩

/-- SoundTimerAndDirtyAreUnobservable. -/
theorem test_witness_sound : ∃ t, step (standing 0xF307#16 { boot with st := 9#8, dirty := true }) = .next t := ⟨_, rfl⟩

/-- TickCommutesWithStep: a draw neither reads nor writes a timer. -/
theorem test_witness_tick_commutes :
    (∀ x, decode (standing 0xD011#16 { boot with dt := 1#8 }).fetchWord ≠ .ok (.ldVxDt x) ∧
      decode (standing 0xD011#16 { boot with dt := 1#8 }).fetchWord ≠ .ok (.ldDtVx x) ∧
      decode (standing 0xD011#16 { boot with dt := 1#8 }).fetchWord ≠ .ok (.ldStVx x)) ∧
    ∃ t, step (standing 0xD011#16 { boot with dt := 1#8 }) = .next t := by
  have h : decode (standing 0xD011#16 { boot with dt := 1#8 }).fetchWord = .ok (.drw 0#4 1#4 1#4) := by decide
  exact ⟨fun x => by rw [h]; simp, _, rfl⟩

/-- StoreIsSeenByTheNextFetch: X = 1, I two bytes above PC, also with the high bits of I set. -/
theorem test_witness_store_next :
    1 ≤ (1#4 : Nibble).toNat ∧ ({ boot with i := 0xF202#16 } : State).i.toNat % 4096 = (boot.pc.toNat + 2) % 4096 := by decide

/-- FaultIsFinal: a halted state and a schedule without `Reset`. -/
theorem test_witness_fault_final :
    (∀ cfg, HostOp.reset cfg ∉ [HostOp.step, .tick, .setKey 3 true, .clearDirty]) ∧
    ({ boot with status := .stackOverflow, dt := 4#8 } : State).status ≠ .running ∧
    ∃ t, runOps [.step, .tick, .setKey 3 true, .clearDirty] { boot with status := .stackOverflow, dt := 4#8 } = .next t := by
  refine ⟨fun cfg => by simp, by decide, _, rfl⟩

/-- JumpsSetPc, the last clause. -/
theorem test_witness_self_jump :
    (standing 0x1200#16 boot).pc.toNat = (0x200#12 : Addr).toNat ∧
    decode (standing 0x1200#16 boot).fetchWord = .ok (.jp 0x200#12) := by decide

end Sys2Proof.Tests
end

section
/-! PROOF. What a running step writes, as data: `Effect`. The obligations of this family speak of which piece of state a
step can change, and of which piece it cannot depend on; both are read off the effect, so that no proof of theirs goes
through the meanings of the 34 instructions again. `step_eq` ties the effects to `step`. -/

namespace Sys2Proof.Machine

/-! ### Effects -/

/-- What one step writes. The operands are values: an effect has read all it needs of the state before, but for the PC,
and for the stack entry of RET and the old I of FX1E, which `apply` reads. -/
inductive Effect where
  /-- Nothing, PC included: a halted machine, and FX0A while no key is pressed. -/
  | stay
  /-- The unknown opcode. -/
  | pass
  /-- The skips. -/
  | skip (cond : Bool)
  /-- 1NNN and BNNN. -/
  | jump (w : Word)
  /-- 2NNN with SP = `top`. -/
  | call (top : Fin 16) (nnn : Addr)
  /-- 00EE with SP = `top` + 1. -/
  | ret (top : Fin 16)
  /-- 2NNN with a full stack, 00EE with an empty one. -/
  | fault (code : Status)
  /-- The instructions that write VX alone. -/
  | setV (x : Nibble) (b : Byte)
  /-- 8XY4 to 8XY7, 8XYE. -/
  | setFlagV (flag : Bool) (x : Nibble) (b : Byte)
  /-- FX65. -/
  | setVs (bytes : List Byte)
  /-- CXNN. -/
  | random (x : Nibble) (nn : Byte)
  /-- ANNN and FX29. -/
  | setI (w : Word)
  /-- FX1E. -/
  | addI (b : Byte)
  /-- FX15. -/
  | setDt (b : Byte)
  /-- FX18. -/
  | setSt (b : Byte)
  /-- FX33 and FX55. -/
  | store (base : Nat) (bytes : List Byte)
  /-- 00E0. -/
  | clear
  /-- DXYN. -/
  | draw (collision : Bool) (d : Display)

/-- The state a step with this effect leaves. -/
def Effect.apply (s : State) : Effect → State
  | .stay => s
  | .pass => s.advance
  | .skip cond => s.skipIf cond
  | .jump w => s.setPc w
  | .call top nnn => (s.setStack (s.stack.set top.val s.pc top.isLt) top.succ).setPc (addrWord nnn)
  | .ret top => (s.setStack s.stack top.castSucc).setPc (s.stack[top] + 2#16)
  | .fault code => s.setStatus code
  | .setV x b => (s.writeV x b).advance
  | .setFlagV flag x b => (s.writeFlagThenV flag x b).advance
  | .setVs bytes => (s.writeVs 0 bytes).advance
  | .random x nn => (s.drawRng.2.writeV x (s.drawRng.1 &&& nn)).advance
  | .setI w => (s.setI w).advance
  | .addI b => (s.setI (s.i + byteWord b)).advance
  | .setDt b => (s.setDt b).advance
  | .setSt b => (s.setSt b).advance
  | .store base bytes => (s.memWriteBlock base bytes).advance
  | .clear => (s.setDisplay blankDisplay).advance
  | .draw collision d => ((s.writeV regF (flagByte collision)).setDisplay d).advance

/-- The effect of an instruction. Memory is addressed by the low 12 bits of I. -/
def effectOf (s : State) : Instr → Effect
  | .cls => .clear
  | .ret => if h : 0 < s.sp.val then .ret ⟨s.sp.val - 1, by omega⟩ else .fault .stackUnderflow
  | .jp nnn => .jump (addrWord nnn)
  | .call nnn => if h : s.sp.val < 16 then .call ⟨s.sp.val, h⟩ nnn else .fault .stackOverflow
  | .seImm x nn => .skip (s.readV x == nn)
  | .sneImm x nn => .skip (s.readV x != nn)
  | .seReg x y _ => .skip (s.readV x == s.readV y)
  | .ldImm x nn => .setV x nn
  | .addImm x nn => .setV x (s.readV x + nn)
  | .ldReg x y => .setV x (s.readV y)
  | .orReg x y => .setV x (s.readV x ||| s.readV y)
  | .andReg x y => .setV x (s.readV x &&& s.readV y)
  | .xorReg x y => .setV x (s.readV x ^^^ s.readV y)
  | .addReg x y => .setFlagV (carryOut (s.readV x) (s.readV y)) x (s.readV x + s.readV y)
  | .subReg x y => .setFlagV (noBorrow (s.readV x) (s.readV y)) x (s.readV x - s.readV y)
  | .shrReg x y => .setFlagV (shiftedOutRight (s.shiftSource x y)) x (s.shiftSource x y >>> 1)
  | .subnReg x y => .setFlagV (noBorrow (s.readV y) (s.readV x)) x (s.readV y - s.readV x)
  | .shlReg x y => .setFlagV (shiftedOutLeft (s.shiftSource x y)) x (s.shiftSource x y <<< 1)
  | .sneReg x y _ => .skip (s.readV x != s.readV y)
  | .ldI nnn => .setI (addrWord nnn)
  | .jpV0 nnn => .jump (addrWord nnn + byteWord (s.readV 0#4))
  | .rnd x nn => .random x nn
  | .drw x y n =>
    let drawn := drawRows s.cfg.spriteWrap (s.originX x) (s.originY y)
      (s.memReadBlock (s.i.toNat % 4096) n.toNat) (s.disp, false)
    .draw drawn.2 drawn.1
  | .skp x => .skip (s.keyDown (lowNibble (s.readV x)))
  | .sknp x => .skip (!s.keyDown (lowNibble (s.readV x)))
  | .ldVxDt x => .setV x s.dt
  | .ldVxK x =>
    match s.firstKey with
    | some k => .setV x (k.setWidth 8)
    | none => .stay
  | .ldDtVx x => .setDt (s.readV x)
  | .ldStVx x => .setSt (s.readV x)
  | .addI x => .addI (s.readV x)
  | .ldF x => .setI (s.glyphAddr (lowNibble (s.readV x)))
  | .ldB x => .store (s.i.toNat % 4096) (bcdDigits (s.readV x))
  | .storeRegs x => .store (s.i.toNat % 4096) (s.readVs x)
  | .loadRegs x => .setVs (s.memReadBlock (s.i.toNat % 4096) (x.toNat + 1))

/-- The effect of a step: of a halted machine, of the unknown opcode, or of the decoded instruction. -/
def stepEffect (s : State) : Effect :=
  if s.halted then .stay
  else
    match decode s.fetchWord with
    | .ok i => effectOf s i
    | .error _ => .pass

/-! ### The effects are the step's -/

theorem State.memReadBlock_mod (s : State) (a count : Nat) :
    s.memReadBlock (a % 4096) count = s.memReadBlock a count :=
  s.memReadBlock_congr s _ _ _ (Nat.mod_mod _ _) fun _ => rfl

theorem State.memWriteBlock_base_mod (s : State) (a : Nat) (bytes : List Byte) :
    s.memWriteBlock (a % 4096) bytes = s.memWriteBlock a bytes :=
  s.memWriteBlock_mod _ _ _ (Nat.mod_mod _ _)

/-- Every instruction answers the state its effect leaves. -/
theorem exec_eq (i : Instr) (s : State) : exec i s = .next ((effectOf s i).apply s) := by
  cases i with
  | ret =>
    by_cases h : 0 < s.sp.val
    · simp [exec, execRet, State.pop, h, effectOf, Effect.apply]
    · simp [exec, execRet, State.pop, h, effectOf, Effect.apply, takeFault]
  | call nnn =>
    by_cases h : s.sp.val < 16
    · simp [exec, execCall, State.push, h, effectOf, Effect.apply]
    · simp [exec, execCall, State.push, h, effectOf, Effect.apply, takeFault]
  | ldVxK x =>
    cases h : s.firstKey with
    | none => simp [exec, execLdVxK, h, effectOf, Effect.apply]
    | some k => simp [exec, execLdVxK, h, effectOf, Effect.apply]
  | drw x y n => simp only [exec, execDrw, effectOf, Effect.apply, State.memReadBlock_mod]
  | ldB x => simp only [exec, execLdB, effectOf, Effect.apply, State.memWriteBlock_base_mod]
  | storeRegs x => simp only [exec, execStoreRegs, effectOf, Effect.apply, State.memWriteBlock_base_mod]
  | loadRegs x => simp only [exec, execLoadRegs, effectOf, Effect.apply, State.memReadBlock_mod]
  | _ => rfl

theorem stepEffect_of_halted {s : State} (hs : s.status ≠ .running) : stepEffect s = .stay := by
  simp [stepEffect, State.halted, hs]

theorem stepEffect_of_unknown {s : State} {e : DecodeError} (hs : s.status = .running)
    (hd : decode s.fetchWord = .error e) : stepEffect s = .pass := by
  simp [stepEffect, State.halted, hs, hd]

theorem stepEffect_of_instr {s : State} {i : Instr} (hs : s.status = .running)
    (hd : decode s.fetchWord = .ok i) : stepEffect s = effectOf s i := by
  simp [stepEffect, State.halted, hs, hd]

/-- Every step answers the state its effect leaves. -/
theorem step_eq (s : State) : step s = .next ((stepEffect s).apply s) := by
  rcases step_cases s with ⟨hs, h⟩ | ⟨hs, ⟨e, hd⟩, h⟩ | ⟨hs, i, hd, h⟩
  · rw [h, stepEffect_of_halted hs]; rfl
  · rw [h, stepEffect_of_unknown hs hd]; rfl
  · rw [h, stepEffect_of_instr hs hd, exec_eq]

theorem eq_apply_of_step {s t : State} (h : step s = .next t) : t = (stepEffect s).apply s := by
  rw [step_eq] at h
  exact (Host.Outcome.next.inj h).symm

/-! ### Which word has which effect -/

/-- What is known of a running state whose step has the effect: the instruction at PC, and the operands that later
proofs use. -/
def Effect.Source (s : State) : Effect → Prop
  | .stay => ∃ x, decode s.fetchWord = .ok (.ldVxK x)
  | .pass => ∃ e, decode s.fetchWord = .error e
  | .skip _ | .jump _ => ∃ i, decode s.fetchWord = .ok i ∧ redirects i = true
  | .call top nnn => s.sp.val = top.val ∧ decode s.fetchWord = .ok (.call nnn)
  | .ret top => s.sp.val = top.val + 1 ∧ decode s.fetchWord = .ok .ret
  | .fault code =>
    (code = .stackOverflow ∧ s.sp.val = 16 ∧ ∃ nnn, decode s.fetchWord = .ok (.call nnn)) ∨
    (code = .stackUnderflow ∧ s.sp.val = 0 ∧ decode s.fetchWord = .ok .ret)
  | .setV x _ => ∃ i, decode s.fetchWord = .ok i ∧
    ((∃ nn, i = .ldImm x nn ∨ i = .addImm x nn) ∨
     (∃ y, i = .ldReg x y ∨ i = .orReg x y ∨ i = .andReg x y ∨ i = .xorReg x y) ∨ i = .ldVxDt x ∨ i = .ldVxK x)
  | .setFlagV _ x _ => ∃ i y, decode s.fetchWord = .ok i ∧
    (i = .addReg x y ∨ i = .subReg x y ∨ i = .shrReg x y ∨ i = .subnReg x y ∨ i = .shlReg x y)
  | .setVs bytes => ∃ x, decode s.fetchWord = .ok (.loadRegs x) ∧ bytes.length = x.toNat + 1
  | .random x nn => decode s.fetchWord = .ok (.rnd x nn)
  | .setI _ => (∃ nnn, decode s.fetchWord = .ok (.ldI nnn)) ∨ ∃ x, decode s.fetchWord = .ok (.ldF x)
  | .addI _ => ∃ x, decode s.fetchWord = .ok (.addI x)
  | .setDt b => ∃ x, decode s.fetchWord = .ok (.ldDtVx x) ∧ b = s.readV x
  | .setSt b => ∃ x, decode s.fetchWord = .ok (.ldStVx x) ∧ b = s.readV x
  | .store _ _ => ∃ x, decode s.fetchWord = .ok (.ldB x) ∨ decode s.fetchWord = .ok (.storeRegs x)
  | .clear => decode s.fetchWord = .ok .cls
  | .draw _ _ => ∃ x y n, decode s.fetchWord = .ok (.drw x y n)

theorem effectOf_source {s : State} {i : Instr} (hd : decode s.fetchWord = .ok i) : (effectOf s i).Source s := by
  cases i with
  | ret =>
    by_cases h : 0 < s.sp.val
    · simp only [effectOf, h, dite_true, Effect.Source]
      exact ⟨by omega, hd⟩
    · simp only [effectOf, h, dite_false, Effect.Source]
      exact .inr ⟨trivial, by omega, hd⟩
  | call nnn =>
    by_cases h : s.sp.val < 16
    · simp only [effectOf, h, dite_true, Effect.Source]
      exact ⟨trivial, hd⟩
    · simp only [effectOf, h, dite_false, Effect.Source]
      exact .inl ⟨trivial, by omega, nnn, hd⟩
  | ldVxK x =>
    cases h : s.firstKey with
    | none => simp [effectOf, h, Effect.Source, hd]
    | some k => simp [effectOf, h, Effect.Source, hd]
  | loadRegs x => exact ⟨x, hd, s.memReadBlock_length _ _⟩
  | _ => simp [effectOf, Effect.Source, hd, redirects]

theorem stepEffect_source {s : State} (hs : s.status = .running) : (stepEffect s).Source s := by
  cases hd : decode s.fetchWord with
  | error e => rw [stepEffect_of_unknown hs hd]; exact ⟨e, hd⟩
  | ok i => rw [stepEffect_of_instr hs hd]; exact effectOf_source hd

/-- The inversion of `step`: it does nothing, halted, or it has an effect, whose source is the word at PC. -/
theorem step_next_cases {s t : State} (h : step s = .next t) :
    (s.status ≠ .running ∧ t = s) ∨ (s.status = .running ∧ ∃ e : Effect, e.Source s ∧ t = e.apply s) := by
  by_cases hs : s.status = .running
  · exact .inr ⟨hs, stepEffect s, stepEffect_source hs, eq_apply_of_step h⟩
  · rw [step_of_halted s hs] at h
    exact .inl ⟨hs, (Host.Outcome.next.inj h).symm⟩

end Sys2Proof.Machine
end

section
/-! PROOF. The invariant of 10_state.md R32: it holds at reset, every step and every other operation keeps it, so every
reachable state has it (O16, O17, O18). What reset leaves, field by field (O13). -/

namespace Sys2Proof.Machine

theorem State.setPc_pc_lt (s : State) (w : Word) : (s.setPc w).pc.toNat < 4096 := by
  rw [State.setPc_pc_toNat]; omega

/-- The invariant speaks of PC, the stack, memory and the configuration only. -/
theorem State.Inv.of_same {s t : State} (h : s.Inv) (hpc : t.pc.toNat < 4096) (hstack : t.stack = s.stack)
    (hmem : t.mem = s.mem) (hcfg : t.cfg = s.cfg) : t.Inv :=
  ⟨hpc, hstack ▸ h.stack_lt, by rw [hmem, hcfg]; exact h.mem_wf, by rw [hcfg]; exact h.cfg_legal⟩

theorem State.Inv.memWriteBlock {s : State} (h : s.Inv) (base : Nat) (bytes : List Byte) :
    (s.memWriteBlock base bytes).Inv :=
  ⟨by simpa using h.pc_lt, by simpa using h.stack_lt, by simpa using s.memWriteBlock_wf base bytes h.mem_wf,
    by simpa using h.cfg_legal⟩

theorem State.Inv.writeVs {s : State} (h : s.Inv) (k : Nat) (bytes : List Byte) : (s.writeVs k bytes).Inv :=
  h.of_same (by simpa using h.pc_lt) (by simp) (by simp) (by simp)

/-- CALL pushes a PC, which is below 4096. -/
theorem State.Inv.push_pc {s : State} (h : s.Inv) (top : Fin 16) (sp : Fin 17) :
    (s.setStack (s.stack.set top.val s.pc top.isLt) sp).Inv := by
  refine ⟨h.pc_lt, fun k => ?_, h.mem_wf, h.cfg_legal⟩
  show ((s.stack.set top.val s.pc top.isLt)[k.val]).toNat < 4096
  rw [Vector.getElem_set]
  split
  · exact h.pc_lt
  · exact h.stack_lt k

theorem State.Inv.setPc {s : State} (h : s.Inv) (w : Word) : (s.setPc w).Inv :=
  h.of_same (s.setPc_pc_lt w) rfl rfl rfl

/-- Every effect keeps the invariant: PC is written through `setPc`, memory through `memWriteBlock`. -/
theorem Effect.apply_inv {s : State} (h : s.Inv) (e : Effect) : (e.apply s).Inv := by
  cases e with
  | stay => exact h
  | fault code => exact h.of_same h.pc_lt rfl rfl rfl
  | call top nnn => exact (h.push_pc top top.succ).setPc _
  | store base bytes => exact (h.memWriteBlock base bytes).setPc _
  | setVs bytes => exact (h.writeVs 0 bytes).setPc _
  | _ => exact h.of_same (State.setPc_pc_lt _ _) rfl rfl rfl

/-- Settles O17: a halted step changes nothing, any other leaves what its effect leaves. -/
theorem stepKeepsInv : Obligations.StepKeepsInv := by
  intro s t hinv h
  rcases step_next_cases h with ⟨_, rfl⟩ | ⟨_, e, _, rfl⟩
  · exact hinv
  · exact e.apply_inv hinv

theorem State.resetWith_inv {cfg : Config} (legal : cfg.legal) : (State.resetWith cfg).Inv :=
  ⟨by simp [State.resetWith], fun k => by simp [State.resetWith], State.resetWith_wf cfg, legal⟩

theorem resetConfig_legal : resetConfig.legal := by
  have := Config.freeFontBase.isLt
  simp only [Config.legal, resetConfig, BitVec.toNat_ofNat]
  omega

/-- Settles O16: `State.reset` is the reset state of `resetConfig`, which is legal whatever the free FONT_BASE is. -/
theorem invHoldsAtReset : Obligations.InvHoldsAtReset :=
  ⟨State.resetWith_inv resetConfig_legal, fun _ legal => State.resetWith_inv legal⟩

/-- Every operation of the block keeps the invariant. -/
theorem perform_keeps_inv {o : HostOp} {s t : State} (hinv : s.Inv) (h : perform o s = .next t) : t.Inv := by
  cases o with
  | reset cfg =>
    simp only [perform, hostReset] at h
    split at h
    · cases h; exact State.resetWith_inv ‹_›
    · cases h
  | loadProgram bytes =>
    simp only [perform, loadProgram] at h
    split at h
    · cases h
    · split at h
      · cases h
      · cases h; exact hinv.memWriteBlock _ _
  | step => exact stepKeepsInv s t hinv h
  | tick => cases h; exact hinv.of_same hinv.pc_lt rfl rfl rfl
  | setKey index pressed => cases h; exact hinv.of_same (by simpa using hinv.pc_lt) (by simp) (by simp) (by simp)
  | clearDirty => cases h; exact hinv.of_same hinv.pc_lt rfl rfl rfl

theorem Reachable.inv {s : State} (h : Reachable s) : s.Inv := by
  induction h with
  | reset cfg legal => exact State.resetWith_inv legal
  | op s t o _ answers ih => exact perform_keeps_inv ih answers

theorem Status.cases (c : Status) : c = .running ∨ c = .stackOverflow ∨ c = .stackUnderflow := by
  cases c <;> simp

/-- Settles O18, by induction over the operations that reach the state: the invariant bounds PC and the
stack, the types bound the rest. -/
theorem reachableStatesKeepBounds : Obligations.ReachableStatesKeepBounds := by
  intro s hs
  have hinv := hs.inv
  exact ⟨Nat.le_of_lt_succ hinv.pc_lt, Nat.le_of_lt_succ s.sp.isLt, fun k => Nat.le_of_lt_succ (hinv.stack_lt k),
    s.status.cases, Nat.le_of_lt_succ s.dt.isLt, Nat.le_of_lt_succ s.st.isLt,
    fun x => Nat.le_of_lt_succ (s.readV x).isLt, Nat.le_of_lt_succ s.i.isLt, hinv⟩

/-! ### What reset leaves -/

theorem State.memRead_resetWith (cfg : Config) (a : Nat) :
    (State.resetWith cfg).memRead a = memBackground cfg (a % 4096) := rfl

theorem memBackground_font {cfg : Config} (legal : cfg.legal) (k : Fin 80) :
    memBackground cfg (cfg.fontBase.toNat + k.val) = cfg.fontData[k] := by
  have hlow : ¬ 0x200 ≤ cfg.fontBase.toNat + k.val := by unfold Config.legal at legal; omega
  simp [memBackground, hlow]

theorem memBackground_outside_font {cfg : Config} {a : Nat}
    (h : a < cfg.fontBase.toNat ∨ cfg.fontBase.toNat + 80 ≤ a) : memBackground cfg a = 0#8 := by
  have hout : ¬ (cfg.fontBase.toNat ≤ a ∧ a < cfg.fontBase.toNat + 80) := by omega
  simp [memBackground, hout]

/-- Settles O13: the fields of `State.resetWith`, and its memory, which reads as the reset contents. -/
theorem resetLeavesTheStatedValues : Obligations.ResetLeavesTheStatedValues := by
  refine ⟨⟨resetConfig, resetConfig_legal, rfl⟩, fun cfg legal => ⟨State.resetWith cfg, ?_, rfl, ?_⟩⟩
  · simp [perform, hostReset, legal]
  · have hfont (k : Fin 80) :
        (State.resetWith cfg).memRead (cfg.fontBase.toNat + k.val) = cfg.fontData[k] := by
      have : cfg.fontBase.toNat + k.val < 4096 := by unfold Config.legal at legal; omega
      rw [State.memRead_resetWith, Nat.mod_eq_of_lt this, memBackground_font legal]
    have hzero (a : Nat) (ha : a < 4096) (h : a < cfg.fontBase.toNat ∨ cfg.fontBase.toNat + 80 ≤ a) :
        (State.resetWith cfg).memRead a = 0#8 := by
      rw [State.memRead_resetWith, Nat.mod_eq_of_lt ha, memBackground_outside_font h]
    refine ⟨fun x => ?_, rfl, rfl, rfl, fun k => ?_, rfl, rfl, pixel_blankDisplay, fun k => ?_, rfl, rfl,
      hfont, hzero, rfl, rfl⟩
    · simp [State.readV, State.resetWith]
    · simp [State.resetWith]
    · simp [State.keyDown, State.resetWith]

end Sys2Proof.Machine
end

section
/-! PROOF. Which pieces of state a step can change, effect by effect (O48 to O54, O35). -/

namespace Sys2Proof.Machine

/-- Settles O48: only `clear` and `draw` write the display, through `setDisplay`. -/
theorem onlyClsAndDrwTouchTheDisplay : Obligations.OnlyClsAndDrwTouchTheDisplay := by
  intro s t h
  rcases step_next_cases h with ⟨_, rfl⟩ | ⟨_, e, source, rfl⟩
  · exact .inl ⟨rfl, rfl⟩
  · cases e with
    | clear => exact .inr ⟨rfl, .inl source⟩
    | draw collision d => exact .inr ⟨rfl, .inr source⟩
    | store | setVs => exact .inl (by simp [Effect.apply])
    | _ => exact .inl ⟨rfl, rfl⟩

/-- Settles O49: `call`, `ret` and the two faults are the effects that write SP, the stack or the status. -/
theorem onlyCallAndRetTouchTheStack : Obligations.OnlyCallAndRetTouchTheStack := by
  intro s t h
  rcases step_next_cases h with ⟨_, rfl⟩ | ⟨hs, e, source, rfl⟩
  · exact .inl ⟨rfl, rfl, rfl⟩
  · cases e with
    | call top nnn => exact .inr (.inl ⟨hs, hs, .inr ⟨nnn, source.2⟩⟩)
    | ret top => exact .inr (.inl ⟨hs, hs, .inl source.2⟩)
    | fault code =>
      rcases source with ⟨rfl, hsp, hcall⟩ | ⟨rfl, hsp, hret⟩
      · exact .inr (.inr (.inl ⟨hs, rfl, hsp, hcall⟩))
      · exact .inr (.inr (.inr ⟨hs, rfl, hsp, hret⟩))
    | store | setVs => exact .inl (by simp [Effect.apply])
    | _ => exact .inl ⟨rfl, rfl, rfl⟩

/-- Settles O50: `setDt` and `setSt` are the effects that write a timer, and none writes a key or the configuration. -/
theorem stepKeepsKeysAndTimers : Obligations.StepKeepsKeysAndTimers := by
  intro s t h
  rcases step_next_cases h with ⟨_, rfl⟩ | ⟨_, e, source, rfl⟩
  · exact ⟨rfl, rfl, .inl rfl, .inl rfl⟩
  · cases e with
    | setDt b => exact ⟨rfl, rfl, .inr source, .inl rfl⟩
    | setSt b => exact ⟨rfl, rfl, .inl rfl, .inr source⟩
    | store | setVs => simp [Effect.apply]
    | _ => exact ⟨rfl, rfl, .inl rfl, .inl rfl⟩

/-- A register write that changes VF names VF. -/
theorem State.eq_regF_of_writeV_changes {s : State} {x : Nibble} {b : Byte}
    (h : (s.writeV x b).readV regF ≠ s.readV regF) : x = regF := by
  by_contra hx
  exact h (s.readV_writeV_ne x regF b (Ne.symm hx))

/-- A block write from V0 up that changes VF is 16 registers long. -/
theorem State.length_of_writeVs_changes_regF {s : State} {bytes : List Byte}
    (hlen : bytes.length ≤ 16) (h : (s.writeVs 0 bytes).readV regF ≠ s.readV regF) : bytes.length = 16 := by
  by_contra hne
  refine h (s.readV_writeVs_outside 0 bytes regF (.inr ?_) (by omega))
  show 0 + bytes.length ≤ 15
  omega

/-- Settles O51: the effects that write a register are those of the instructions named. -/
theorem onlyFlagInstructionsWriteVf : Obligations.OnlyFlagInstructionsWriteVf := by
  intro s t h hvf
  rcases step_next_cases h with ⟨_, rfl⟩ | ⟨_, e, source, rfl⟩
  · exact absurd rfl hvf
  · cases e with
    | setV x b =>
      obtain rfl : x = regF := State.eq_regF_of_writeV_changes hvf
      obtain ⟨i, hd, ⟨nn, hi⟩ | ⟨y, hi⟩ | hi⟩ := source
      · exact ⟨i, hd, .inr (.inr (.inl ⟨nn, by tauto⟩))⟩
      · exact ⟨i, hd, .inr (.inr (.inr (.inl ⟨y, hi⟩)))⟩
      · exact ⟨i, hd, .inr (.inr (.inr (.inr (by tauto))))⟩
    | random x nn =>
      obtain rfl : x = regF := State.eq_regF_of_writeV_changes (s := s.drawRng.2) hvf
      exact ⟨_, source, .inr (.inr (.inl ⟨nn, .inr (.inr rfl)⟩))⟩
    | setVs bytes =>
      obtain ⟨x, hd, hlen⟩ := source
      have hx := x.isLt
      have h16 := State.length_of_writeVs_changes_regF (by omega) hvf
      obtain rfl : x = regF := BitVec.eq_of_toNat_eq (show x.toNat = 15 by omega)
      exact ⟨_, hd, .inr (.inr (.inr (.inr (.inr (.inr rfl)))))⟩
    | setFlagV flag x b =>
      obtain ⟨i, y, hd, hi⟩ := source
      exact ⟨i, hd, .inl ⟨x, y, hi⟩⟩
    | draw collision d =>
      obtain ⟨x, y, n, hd⟩ := source
      exact ⟨_, hd, .inr (.inl ⟨x, y, n, rfl⟩)⟩
    | store base bytes => exact absurd (by simp [Effect.apply]) hvf
    | _ => exact absurd rfl hvf

/-- Settles O52: `random` is the effect of CXNN, and the only one that draws. -/
theorem onlyRndConsumesRandomBytes : Obligations.OnlyRndConsumesRandomBytes := by
  intro s t h
  rcases step_next_cases h with halted | ⟨hs, e, source, rfl⟩
  · exact .inr (.inr halted)
  · by_cases hrnd : ∃ x nn, decode s.fetchWord = .ok (.rnd x nn)
    · refine .inr (.inl ⟨?_, hrnd⟩)
      obtain ⟨x, nn, hd⟩ := hrnd
      rw [eq_apply_of_step h, stepEffect_of_instr hs hd]
      rfl
    · refine .inl ⟨?_, fun _ x nn hd => hrnd ⟨x, nn, hd⟩⟩
      cases e with
      | random x nn => exact absurd ⟨x, nn, source⟩ hrnd
      | store | setVs => simp [Effect.apply]
      | _ => rfl

/-- Settles O53: every effect whose instruction does not redirect ends in `advance`. -/
theorem pcAdvancesByTwo : Obligations.PcAdvancesByTwo := by
  intro s t hs h plain
  rcases step_next_cases h with ⟨hhalt, _⟩ | ⟨_, e, source, rfl⟩
  · exact absurd hs hhalt
  · have excluded {i : Instr} (hd : decode s.fetchWord = .ok i) (hr : redirects i = true) : PcPlus 2 s (e.apply s) := by
      simp [plain i hd] at hr
    cases e with
    | stay => obtain ⟨x, hd⟩ := source; exact excluded hd rfl
    | skip | jump => obtain ⟨i, hd, hr⟩ := source; exact excluded hd hr
    | call | ret => exact excluded source.2 rfl
    | fault code =>
      rcases source with ⟨_, _, nnn, hd⟩ | ⟨_, _, hd⟩
      · exact excluded hd rfl
      · exact excluded hd rfl
    | store | setVs => exact pcPlus_of_advance _ _ (by simp [Effect.apply])
    | _ => exact pcPlus_of_advance _ _ rfl

/-- Writing I and moving on changes nothing but I and PC. -/
theorem State.setI_advance_onlyChanges (s : State) (w : Word) : OnlyChanges [.i, .pc] s (s.setI w).advance := by
  intro p hp
  cases p with
  | i | pc => simp at hp
  | v | mem => exact fun _ => rfl
  | _ => rfl

/-- Settles O54: only `setI` and `addI` write I, through `State.setI`. -/
theorem onlyThreeInstructionsWriteI : Obligations.OnlyThreeInstructionsWriteI := by
  intro s t h
  rcases step_next_cases h with ⟨_, rfl⟩ | ⟨_, e, source, rfl⟩
  · exact .inl rfl
  · cases e with
    | setI w =>
      refine .inr ⟨s.setI_advance_onlyChanges w, ?_⟩
      rcases source with hd | ⟨x, hd⟩
      · exact .inl hd
      · exact .inr ⟨x, .inr hd⟩
    | addI b =>
      obtain ⟨x, hd⟩ := source
      exact .inr ⟨s.setI_advance_onlyChanges _, .inr ⟨x, .inl hd⟩⟩
    | store | setVs => exact .inl (by simp [Effect.apply])
    | _ => exact .inl rfl

theorem decode_rnd (x : Nibble) (nn : Byte) : decode (wordXI 0xC#4 x nn) = .ok (.rnd x nn) := by
  simp [decode]

/-- Settles O35: the fields that `drawRng`, `writeV` and `advance` leave. -/
theorem randomConsumesOneByte : Obligations.RandomConsumesOneByte := by
  intro s x nn
  refine ⟨decode_rnd x nn, _, rfl, ?_, rfl, ?_, pcPlus_of_advance _ _ rfl, ?_⟩
  · simp
  · intro j hj
    have : j ≠ x := by simpa using hj
    simp [State.readV_writeV_ne _ _ _ _ this]
  · intro p hp
    cases p with
    | v | pc | rngCount => simp at hp
    | mem => exact fun _ => rfl
    | _ => rfl

end Sys2Proof.Machine
end

section
/-! PROOF. What a step cannot depend on: the high bits of I, the dead stack entries, ST and dirty (O55, O56, O57). The two
states have the same effect, and the effect applied to both keeps them equal elsewhere. -/

namespace Sys2Proof.Machine

/-- An update that leaves `memWrite` alone leaves a block write alone. -/
theorem memWriteBlock_comm (f : State → State) (hf : ∀ s a b, (f s).memWrite a b = f (s.memWrite a b))
    (s : State) (base : Nat) (bytes : List Byte) : (f s).memWriteBlock base bytes = f (s.memWriteBlock base bytes) := by
  induction bytes generalizing s base with
  | nil => rfl
  | cons b rest ih => rw [State.memWriteBlock, State.memWriteBlock, hf, ih]

/-- An update that leaves `writeV` alone leaves a register block write alone. -/
theorem writeVs_comm (f : State → State) (hf : ∀ s x b, (f s).writeV x b = f (s.writeV x b))
    (s : State) (k : Nat) (bytes : List Byte) : (f s).writeVs k bytes = f (s.writeVs k bytes) := by
  induction bytes generalizing s k with
  | nil => rfl
  | cons b rest ih => rw [State.writeVs, State.writeVs, hf, ih]

/-- Two states that agree on the status and the fetched word have the same effect if every instruction has. -/
theorem stepEffect_congr {s s' : State} (hstatus : s'.status = s.status) (hfetch : s'.fetchWord = s.fetchWord)
    (h : ∀ i, effectOf s' i = effectOf s i) : stepEffect s' = stepEffect s := by
  have heffects : effectOf s' = effectOf s := funext h
  unfold stepEffect State.halted
  rw [hstatus, hfetch, heffects]

/-! ### The high bits of I -/

/-- An instruction reads I modulo 4096 only; FX1E adds to it. -/
theorem effectOf_setI {s : State} {w : Word} (hw : w.toNat % 4096 = s.i.toNat % 4096) (i : Instr) :
    effectOf (s.setI w) i = effectOf s i := by
  have hread (base count : Nat) : (s.setI w).memReadBlock base count = s.memReadBlock base count := rfl
  cases i with
  | drw x y n => simp only [effectOf, State.setI_i, hw, hread]; rfl
  | ldB x => simp only [effectOf, State.setI_i, hw]; rfl
  | storeRegs x => simp only [effectOf, State.setI_i, hw]; rfl
  | loadRegs x => simp only [effectOf, State.setI_i, hw, hread]
  | _ => rfl

/-- An effect writes I with a value that depends on I modulo 4096 only, and does not read I otherwise. -/
theorem Effect.apply_setI {s : State} {w : Word} (hw : w.toNat % 4096 = s.i.toNat % 4096) (e : Effect) :
    ∃ w' : Word, w'.toNat % 4096 = (e.apply s).i.toNat % 4096 ∧ e.apply (s.setI w) = (e.apply s).setI w' := by
  cases e with
  | setI v => exact ⟨v, rfl, rfl⟩
  | addI b =>
    refine ⟨w + byteWord b, ?_, rfl⟩
    show (w + byteWord b).toNat % 4096 = (s.i + byteWord b).toNat % 4096
    rw [BitVec.toNat_add, BitVec.toNat_add]
    omega
  | store base bytes =>
    refine ⟨w, by simpa [Effect.apply] using hw, ?_⟩
    simp only [Effect.apply, memWriteBlock_comm (·.setI w) fun _ _ _ => rfl]
    rfl
  | setVs bytes =>
    refine ⟨w, by simpa [Effect.apply] using hw, ?_⟩
    simp only [Effect.apply, writeVs_comm (·.setI w) fun _ _ _ => rfl]
    rfl
  | _ => exact ⟨w, hw, rfl⟩

/-- Settles O55: both states have the same effect, which writes I or keeps it, in both alike. -/
theorem highIndexBitsAreUnobservable : Obligations.HighIndexBitsAreUnobservable := by
  intro s t w hw h
  obtain rfl := eq_apply_of_step h
  obtain ⟨w', hw', happly⟩ := Effect.apply_setI hw (stepEffect s)
  refine ⟨w', hw', ?_⟩
  have heffect : stepEffect (s.setI w) = stepEffect s := stepEffect_congr rfl rfl (effectOf_setI hw)
  show step (s.setI w) = _
  rw [step_eq, heffect, happly]
  rfl

/-! ### The dead stack entries -/

/-- `Stack <- stk`, SP unchanged. -/
def State.withStack (s : State) (stk : Vector Word 16) : State := { s with stack := stk }

/-- An effect is chosen by SP alone, not by what the stack holds. -/
theorem effectOf_withStack (s : State) (stk : Vector Word 16) (i : Instr) :
    effectOf (s.withStack stk) i = effectOf s i := by
  cases i <;> rfl

/-- An effect reads the stack below SP only, and writes below the SP it leaves. -/
theorem Effect.apply_withStack {s : State} {e : Effect} {stk : Vector Word 16} (source : e.Source s)
    (live : ∀ k : Fin 16, k.val < s.sp.val → stk[k] = s.stack[k]) :
    ∃ stk' : Vector Word 16, (∀ k : Fin 16, k.val < (e.apply s).sp.val → stk'[k] = (e.apply s).stack[k]) ∧
      e.apply (s.withStack stk) = (e.apply s).withStack stk' := by
  cases e with
  | call top nnn =>
    obtain ⟨hsp, _⟩ := source
    refine ⟨stk.set top.val s.pc top.isLt, fun k hk => ?_, rfl⟩
    have hk : k.val < top.val + 1 := hk
    show (stk.set top.val s.pc top.isLt)[k.val] = (s.stack.set top.val s.pc top.isLt)[k.val]
    rw [Vector.getElem_set, Vector.getElem_set]
    split
    · rfl
    · exact live k (by omega)
  | ret top =>
    obtain ⟨hsp, _⟩ := source
    refine ⟨stk, fun k hk => live k ?_, ?_⟩
    · have hk : k.val < top.val := hk
      omega
    · have hread : stk[top] = s.stack[top] := live top (by omega)
      show ((s.withStack stk).setStack stk top.castSucc).setPc (stk[top] + 2#16) = _
      rw [hread]
      rfl
  | store base bytes =>
    refine ⟨stk, by simpa [Effect.apply] using live, ?_⟩
    simp only [Effect.apply, memWriteBlock_comm (·.withStack stk) fun _ _ _ => rfl]
    rfl
  | setVs bytes =>
    refine ⟨stk, by simpa [Effect.apply] using live, ?_⟩
    simp only [Effect.apply, writeVs_comm (·.withStack stk) fun _ _ _ => rfl]
    rfl
  | _ => exact ⟨stk, live, rfl⟩

/-- Settles O56: both states have the same effect, and it reads live entries only. -/
theorem deadStackEntriesAreUnobservable : Obligations.DeadStackEntriesAreUnobservable := by
  intro s t stk live h
  show ∃ stk', _ ∧ step (s.withStack stk) = .next (t.withStack stk')
  have heffect : stepEffect (s.withStack stk) = stepEffect s := stepEffect_congr rfl rfl (effectOf_withStack s stk)
  obtain rfl := eq_apply_of_step h
  by_cases hs : s.status = .running
  · obtain ⟨stk', live', happly⟩ := Effect.apply_withStack (stepEffect_source hs) live
    exact ⟨stk', live', by rw [step_eq, heffect, happly]⟩
  · rw [stepEffect_of_halted hs] at heffect ⊢
    exact ⟨stk, live, by rw [step_eq, heffect]; rfl⟩

/-! ### ST and dirty -/

/-- `ST <- b`, `dirty <- d`. -/
def State.withSound (s : State) (b : Byte) (d : Bool) : State := { s with st := b, dirty := d }

/-- No instruction reads ST or the dirty flag (R21, R22). -/
theorem effectOf_withSound (s : State) (b : Byte) (d : Bool) (i : Instr) :
    effectOf (s.withSound b d) i = effectOf s i := by
  cases i <;> rfl

/-- An effect keeps ST and dirty or overwrites them. -/
theorem Effect.apply_withSound (s : State) (b : Byte) (d : Bool) (e : Effect) :
    ∃ b' d', e.apply (s.withSound b d) = (e.apply s).withSound b' d' := by
  cases e with
  | setSt c => exact ⟨c, d, rfl⟩
  | clear | draw => exact ⟨b, true, rfl⟩
  | store base bytes =>
    refine ⟨b, d, ?_⟩
    simp only [Effect.apply, memWriteBlock_comm (·.withSound b d) fun _ _ _ => rfl]
    rfl
  | setVs bytes =>
    refine ⟨b, d, ?_⟩
    simp only [Effect.apply, writeVs_comm (·.withSound b d) fun _ _ _ => rfl]
    rfl
  | _ => exact ⟨b, d, rfl⟩

/-- Settles O57: both states have the same effect, and applying it reads neither. -/
theorem soundTimerAndDirtyAreUnobservable : Obligations.SoundTimerAndDirtyAreUnobservable := by
  intro s t b d h
  obtain rfl := eq_apply_of_step h
  obtain ⟨b', d', happly⟩ := Effect.apply_withSound s b d (stepEffect s)
  refine ⟨b', d', ?_⟩
  have heffect : stepEffect (s.withSound b d) = stepEffect s := stepEffect_congr rfl rfl (effectOf_withSound s b d)
  show step (s.withSound b d) = _
  rw [step_eq, heffect, happly]
  rfl

end Sys2Proof.Machine
end

section
/-! PROOF. Memory: what a write and a fetch read (O23, O7), that a store is in force at the next fetch (O59), and which
steps write memory at all (O47). -/

namespace Sys2Proof.Machine

/-! ### One byte, one word -/

theorem State.memWrite_onlyChanges (s : State) (a : Nat) (b : Byte) : OnlyChanges [.mem] s (s.memWrite a b) := by
  intro p hp
  cases p with
  | mem => simp at hp
  | v => exact fun _ => rfl
  | _ => rfl

/-- Settles O23: the laws of `memRead` after `memWrite`, and the frame of `memWrite`. -/
theorem memoryReadsWhatWasWritten : Obligations.MemoryReadsWhatWasWritten := fun s a b =>
  ⟨fun a' h => s.memRead_memWrite_same a a' b h, fun a' h => s.memRead_memWrite_ne a a' b h, s.memRead_mod a,
    s.memWrite_onlyChanges a b⟩

/-- The fetch as a number (R43). -/
theorem State.fetchWord_toNat (s : State) :
    s.fetchWord.toNat = (s.memRead s.pc.toNat).toNat * 256 + (s.memRead (s.pc.toNat + 1)).toNat :=
  joinBytes_toNat _ _

/-- Settles O7: the fetch joins the bytes at PC and PC + 1, and a read masks its address. -/
theorem fetchIsBigEndian : Obligations.FetchIsBigEndian := by
  intro s
  rw [s.fetchWord_toNat, s.memRead_mod]

/-! ### Stores -/

/-- After the block write of FX55 every address that is `base + k` modulo 4096 reads as V[k]. -/
theorem State.memRead_memWriteBlock_readVs (s : State) {x k : Nibble} {base a : Nat} (hk : k.toNat ≤ x.toNat)
    (ha : a % 4096 = (base + k.toNat) % 4096) : (s.memWriteBlock base (s.readVs x)).memRead a = s.readV k := by
  have hlen := s.readVs_length x
  have hx := x.isLt
  rw [← State.memRead_mod, ha, State.memRead_mod,
    s.memRead_memWriteBlock_inside base (s.readVs x) k.toNat (by omega) (by omega), State.readVs_getElem,
    BitVec.ofNat_toNat, BitVec.setWidth_eq]

/-- Settles O59: the two bytes fetched at PC + 2 are the first two that the block write stored. -/
theorem storeIsSeenByTheNextFetch : Obligations.StoreIsSeenByTheNextFetch := by
  intro s x hx hi
  refine ⟨_, rfl, ?_⟩
  rw [State.fetchWord_toNat, State.advance_memRead, State.advance_memRead, State.advance_pc_toNat,
    State.memWriteBlock_pc,
    s.memRead_memWriteBlock_readVs (k := 0#4) (Nat.zero_le _) (by rw [BitVec.toNat_ofNat]; omega),
    s.memRead_memWriteBlock_readVs (k := 1#4) hx (by rw [BitVec.toNat_ofNat]; omega)]

/-- Settles O47: `store` is the effect of FX33 and FX55, and the only one that writes memory. -/
theorem onlyStoresWriteMemory : Obligations.OnlyStoresWriteMemory := by
  intro s t h
  rcases step_next_cases h with ⟨_, rfl⟩ | ⟨_, e, source, rfl⟩
  · exact .inl fun _ => rfl
  · cases e with
    | store base bytes => exact .inr source
    | setVs bytes => exact .inl fun a => by simp [Effect.apply]
    | _ => exact .inl fun _ => rfl

end Sys2Proof.Machine
end

section
/-! PROOF. `Tick` and `Step` commute (O58): a tick does not change the effect of the step, and applying the effect does
not meet a timer, except where the word at PC is FX07, FX15 or FX18. -/

namespace Sys2Proof.Machine

/-- FX07 alone reads a timer. -/
theorem effectOf_tick (s : State) {i : Instr} (hi : ∀ x, i ≠ .ldVxDt x) : effectOf (tick s).1 i = effectOf s i := by
  cases i with
  | ldVxDt x => exact absurd rfl (hi x)
  | _ => rfl

theorem stepEffect_tick {s : State} (hd : ∀ x, decode s.fetchWord ≠ .ok (.ldVxDt x)) :
    stepEffect (tick s).1 = stepEffect s := by
  by_cases hs : s.status = .running
  · cases hw : decode s.fetchWord with
    | error e => rw [stepEffect_of_unknown hs hw, stepEffect_of_unknown (s := (tick s).1) hs hw]
    | ok i =>
      rw [stepEffect_of_instr hs hw, stepEffect_of_instr (s := (tick s).1) hs hw]
      exact effectOf_tick s fun x hx => hd x (hx ▸ hw)
  · rw [stepEffect_of_halted hs, stepEffect_of_halted (s := (tick s).1) hs]

/-- An effect that writes no timer can be applied before or after a tick. -/
theorem Effect.apply_tick (s : State) {e : Effect} (hdt : ∀ b, e ≠ .setDt b) (hst : ∀ b, e ≠ .setSt b) :
    e.apply (tick s).1 = (tick (e.apply s)).1 := by
  cases e with
  | setDt b => exact absurd rfl (hdt b)
  | setSt b => exact absurd rfl (hst b)
  | store base bytes =>
    simp only [Effect.apply, memWriteBlock_comm (fun u => (tick u).1) fun _ _ _ => rfl]
    rfl
  | setVs bytes =>
    simp only [Effect.apply, writeVs_comm (fun u => (tick u).1) fun _ _ _ => rfl]
    rfl
  | _ => rfl

/-- Settles O58: the step has the same effect before and after the tick, and by its source it is no write of a timer. -/
theorem tickCommutesWithStep : Obligations.TickCommutesWithStep := by
  intro s t plain h
  obtain rfl := eq_apply_of_step h
  rw [step_eq, stepEffect_tick fun x => (plain x).1]
  by_cases hs : s.status = .running
  · have source := stepEffect_source hs
    rw [Effect.apply_tick s]
    · intro b hb
      obtain ⟨x, hx, _⟩ : (Effect.setDt b).Source s := hb ▸ source
      exact (plain x).2.1 hx
    · intro b hb
      obtain ⟨x, hx, _⟩ : (Effect.setSt b).Source s := hb ▸ source
      exact (plain x).2.2 hx
  · rw [stepEffect_of_halted hs]
    rfl

end Sys2Proof.Machine
end

section
/-! PROOF. The decoder and the encoder undo each other (O1, O2), and the decoder agrees with the unknown words of R69
(O4) and with R66's columns match and mask (O3). -/

namespace Sys2Proof

/-! ### Decoding an encoded instruction -/

theorem decode_wordXI_groupF (x : Nibble) (nn : Byte) :
    decode (wordXI 0xF#4 x nn) = decodeGroupF (wordXI 0xF#4 x nn) :=
  decode_groupF _ (fieldG_wordXI ..)

/-- Settles O1: the dispatch, and in groups 8, E and F the selector, read back the fields the word was built from. -/
theorem encodeThenDecodeGivesInstr : Obligations.EncodeThenDecodeGivesInstr := by
  intro i
  cases i with
  | cls | ret => rfl
  | ldReg | orReg | andReg | xorReg | addReg | subReg | shrReg | subnReg | shlReg =>
    simp [encode, decode, decodeGroup8]
  | skp | sknp => simp [encode, decode, decodeGroupE]
  | ldVxDt | ldVxK | ldDtVx | ldStVx | addI | ldF | ldB | storeRegs | loadRegs =>
    simp [encode, decode_wordXI_groupF, decodeGroupF]
  | _ => simp [encode, decode]

/-! ### Encoding a decoded instruction -/

/-- What the dispatch does with a word: four groups have a selector below the group nibble, and a word of any other
group is the word of an instruction. -/
theorem decode_cases (w : Word) :
    (fieldG w = 0#4 ∧ decode w = decodeGroup0 w) ∨ (fieldG w = 8#4 ∧ decode w = decodeGroup8 w) ∨
    (fieldG w = 14#4 ∧ decode w = decodeGroupE w) ∨ (fieldG w = 15#4 ∧ decode w = decodeGroupF w) ∨
    (fieldG w ∉ [0#4, 8#4, 14#4, 15#4] ∧ ∃ i, decode w = .ok i ∧ encode i = w) := by
  have formatA := wordA_fields w
  have formatXI := wordXI_fields w
  have formatXY := wordXY_fields w
  rcases nibble_cases (fieldG w) with hg | hg | hg | hg | hg | hg | hg | hg | hg | hg | hg | hg | hg | hg | hg | hg
  all_goals
    rw [hg] at formatA formatXI formatXY
    simp [decode, encode, *]

theorem encode_of_decodeGroup0 {w : Word} {i : Instr} (h : decodeGroup0 w = .ok i) : encode i = w := by
  unfold decodeGroup0 at h
  split_ifs at h with hcls hret
  · cases h
    exact hcls.symm
  · cases h
    exact hret.symm

/-- With its group and its selector the word is G X Y f, which is the encoding; groups E and F below are the same over
G X ff. -/
theorem encode_of_decodeGroup8 {w : Word} {i : Instr} (hg : fieldG w = 8#4) (h : decodeGroup8 w = .ok i) :
    encode i = w := by
  have word := wordXY_fields w
  unfold decodeGroup8 at h
  split at h <;> cases h <;> simp_all [encode]

theorem encode_of_decodeGroupE {w : Word} {i : Instr} (hg : fieldG w = 14#4) (h : decodeGroupE w = .ok i) :
    encode i = w := by
  have word := wordXI_fields w
  unfold decodeGroupE at h
  split at h <;> cases h <;> simp_all [encode]

theorem encode_of_decodeGroupF {w : Word} {i : Instr} (hg : fieldG w = 15#4) (h : decodeGroupF w = .ok i) :
    encode i = w := by
  have word := wordXI_fields w
  unfold decodeGroupF at h
  split at h <;> cases h <;> simp_all [encode]

/-- Settles O2, by the cases of the dispatch. -/
theorem decodeThenEncodeGivesWord : Obligations.DecodeThenEncodeGivesWord := by
  intro w i h
  rcases decode_cases w with ⟨_, hd⟩ | ⟨hg, hd⟩ | ⟨hg, hd⟩ | ⟨hg, hd⟩ | ⟨_, j, hd, hj⟩
  · exact encode_of_decodeGroup0 (hd ▸ h)
  · exact encode_of_decodeGroup8 hg (hd ▸ h)
  · exact encode_of_decodeGroupE hg (hd ▸ h)
  · exact encode_of_decodeGroupF hg (hd ▸ h)
  · obtain rfl : j = i := Except.ok.inj (hd ▸ h)
    exact hj

/-! ### The unknown words -/

/-- The words of group 0 that R66 lists. -/
abbrev selectors0 : List Word := [0x00E0#16, 0x00EE#16]
/-- The low nibbles that R66 lists in group 8. -/
abbrev selectors8 : List Nibble := [0x0#4, 0x1#4, 0x2#4, 0x3#4, 0x4#4, 0x5#4, 0x6#4, 0x7#4, 0xE#4]
/-- The low bytes that R66 lists in group E. -/
abbrev selectorsE : List Byte := [0x9E#8, 0xA1#8]
/-- The low bytes that R66 lists in group F. -/
abbrev selectorsF : List Byte := [0x07#8, 0x0A#8, 0x15#8, 0x18#8, 0x1E#8, 0x29#8, 0x33#8, 0x55#8, 0x65#8]

/-- R69's groups, in the fields of the word: a selector that R66 does not list. -/
abbrev IsUnknown (w : Word) : Prop :=
  (fieldG w = 0#4 ∧ w ∉ selectors0) ∨ (fieldG w = 8#4 ∧ fieldN w ∉ selectors8) ∨
  (fieldG w = 14#4 ∧ fieldNN w ∉ selectorsE) ∨ (fieldG w = 15#4 ∧ fieldNN w ∉ selectorsF)

theorem decodeGroup0_eq_error_iff (w : Word) : decodeGroup0 w = .error (.unknownOpcode w) ↔ w ∉ selectors0 := by
  unfold decodeGroup0
  split <;> simp [*]

theorem decodeGroup8_eq_error_iff (w : Word) :
    decodeGroup8 w = .error (.unknownOpcode w) ↔ fieldN w ∉ selectors8 := by
  unfold decodeGroup8
  split <;> simp_all

theorem decodeGroupE_eq_error_iff (w : Word) :
    decodeGroupE w = .error (.unknownOpcode w) ↔ fieldNN w ∉ selectorsE := by
  unfold decodeGroupE
  split <;> simp_all

theorem decodeGroupF_eq_error_iff (w : Word) :
    decodeGroupF w = .error (.unknownOpcode w) ↔ fieldNN w ∉ selectorsF := by
  unfold decodeGroupF
  split <;> simp_all

theorem decode_eq_error_iff (w : Word) : decode w = .error (.unknownOpcode w) ↔ IsUnknown w := by
  rcases decode_cases w with ⟨hg, hd⟩ | ⟨hg, hd⟩ | ⟨hg, hd⟩ | ⟨hg, hd⟩ | ⟨hg, i, hd, _⟩
  · simp [hd, IsUnknown, hg, decodeGroup0_eq_error_iff]
  · simp [hd, IsUnknown, hg, decodeGroup8_eq_error_iff]
  · simp [hd, IsUnknown, hg, decodeGroupE_eq_error_iff]
  · simp [hd, IsUnknown, hg, decodeGroupF_eq_error_iff]
  · simp_all [IsUnknown]

theorem decode_error_or_ok (w : Word) : decode w = .error (.unknownOpcode w) ∨ ∃ i, decode w = .ok i := by
  cases hd : decode w with
  | ok i => exact .inr ⟨i, rfl⟩
  | error e =>
    obtain ⟨w'⟩ := e
    exact .inl (by rw [decode_error_word w w' hd])

/-- Settles O4: `IsUnknown`, with the fields of the word as numbers. -/
theorem unknownWordsOfEachGroup : Obligations.UnknownWordsOfEachGroup := by
  intro w
  rw [decode_eq_error_iff]
  simp only [IsUnknown, List.mem_cons, List.not_mem_nil, ← BitVec.toNat_inj, fieldG_toNat, fieldN_toNat,
    fieldNN_toNat, BitVec.toNat_ofNat, or_false]
  omega

/-! ### R66's columns match and mask -/

/-- The column match of row `k`. -/
def rowMatch (k : Fin 34) : Word := (opcodeMap[k.val]'(by simp [opcodeMap])).1
/-- The column mask of row `k`. -/
def rowMask (k : Fin 34) : Word := (opcodeMap[k.val]'(by simp [opcodeMap])).2

theorem matchesRow_iff_mask (w : Word) (k : Fin 34) : matchesRow w k = true ↔ w &&& rowMask k = rowMatch k :=
  matchesRow_iff w k

theorem fieldG_and (v w : Word) : fieldG (v &&& w) = fieldG v &&& fieldG w := BitVec.extractLsb'_and ..
theorem fieldN_and (v w : Word) : fieldN (v &&& w) = fieldN v &&& fieldN w := BitVec.extractLsb'_and ..
theorem fieldNN_and (v w : Word) : fieldNN (v &&& w) = fieldNN v &&& fieldNN w := BitVec.extractLsb'_and ..

/-- Every mask holds the group nibble, and in groups 0, 8, E and F the selector too. -/
theorem rowMask_covers_selector : ∀ k : Fin 34,
    fieldG (rowMask k) = .allOnes 4 ∧ (fieldG (rowMatch k) = 0#4 → rowMask k = .allOnes 16) ∧
    (fieldG (rowMatch k) = 8#4 → fieldN (rowMask k) = .allOnes 4) ∧
    (fieldG (rowMatch k) = 14#4 ∨ fieldG (rowMatch k) = 15#4 → fieldNN (rowMask k) = .allOnes 8) := by decide

theorem not_isUnknown_rowMatch : ∀ k : Fin 34, ¬ IsUnknown (rowMatch k) := by decide

/-- Two rows that agree on the bits both masks hold are one row. -/
theorem row_eq_of_agree : ∀ k j : Fin 34, rowMatch k &&& rowMask j = rowMatch j &&& rowMask k → k = j := by
  decide

/-- A word that matches a row has the row's group and selector. -/
theorem not_isUnknown_of_matchesRow {w : Word} {k : Fin 34} (h : matchesRow w k = true) : ¬ IsUnknown w := by
  rw [matchesRow_iff_mask] at h
  obtain ⟨hG, whole, low, lowByte⟩ := rowMask_covers_selector k
  have group : fieldG (rowMatch k) = fieldG w := by rw [← h, fieldG_and, hG, BitVec.and_allOnes]
  have row := not_isUnknown_rowMatch k
  rw [group] at whole low lowByte
  rintro (⟨hg, hw⟩ | ⟨hg, hw⟩ | ⟨hg, hw⟩ | ⟨hg, hw⟩)
  · have : rowMatch k = w := by rw [← h, whole hg, BitVec.and_allOnes]
    exact row (.inl ⟨group ▸ hg, this ▸ hw⟩)
  · have : fieldN (rowMatch k) = fieldN w := by rw [← h, fieldN_and, low hg, BitVec.and_allOnes]
    exact row (.inr (.inl ⟨group ▸ hg, this ▸ hw⟩))
  · have : fieldNN (rowMatch k) = fieldNN w := by rw [← h, fieldNN_and, lowByte (.inl hg), BitVec.and_allOnes]
    exact row (.inr (.inr (.inl ⟨group ▸ hg, this ▸ hw⟩)))
  · have : fieldNN (rowMatch k) = fieldNN w := by rw [← h, fieldNN_and, lowByte (.inr hg), BitVec.and_allOnes]
    exact row (.inr (.inr (.inr ⟨group ▸ hg, this ▸ hw⟩)))

theorem row_unique {w : Word} {k j : Fin 34} (hk : matchesRow w k = true) (hj : matchesRow w j = true) : k = j := by
  rw [matchesRow_iff_mask] at hk hj
  apply row_eq_of_agree
  rw [← hk, ← hj, BitVec.and_assoc, BitVec.and_assoc, BitVec.and_comm (rowMask k)]

open Laws.EncodesInItsRow in
/-- The instruction's word lies in the instruction's own row, one lemma of Laws/PerInstr a constructor. -/
theorem matchesRow_encode (i : Instr) : matchesRow (encode i) i.row = true :=
  match i with
  | .cls => cls | .ret => ret | .jp nnn => jp nnn | .call nnn => call nnn | .seImm x nn => seImm x nn
  | .sneImm x nn => sneImm x nn | .seReg x y z => seReg x y z | .ldImm x nn => ldImm x nn
  | .addImm x nn => addImm x nn | .ldReg x y => ldReg x y | .orReg x y => orReg x y | .andReg x y => andReg x y
  | .xorReg x y => xorReg x y | .addReg x y => addReg x y | .subReg x y => subReg x y
  | .shrReg x y => shrReg x y | .subnReg x y => subnReg x y | .shlReg x y => shlReg x y
  | .sneReg x y z => sneReg x y z | .ldI nnn => ldI nnn | .jpV0 nnn => jpV0 nnn | .rnd x nn => rnd x nn
  | .drw x y n => drw x y n | .skp x => skp x | .sknp x => sknp x | .ldVxDt x => ldVxDt x | .ldVxK x => ldVxK x
  | .ldDtVx x => ldDtVx x | .ldStVx x => ldStVx x | .addI x => addI x | .ldF x => ldF x | .ldB x => ldB x
  | .storeRegs x => storeRegs x | .loadRegs x => loadRegs x

/-- A row matches exactly the words of its instructions. -/
theorem matchesRow_iff_decode (w : Word) (k : Fin 34) :
    matchesRow w k = true ↔ ∃ i, decode w = .ok i ∧ i.row = k := by
  have own : ∀ i, decode w = .ok i → matchesRow w i.row = true := fun i hd =>
    decodeThenEncodeGivesWord w i hd ▸ matchesRow_encode i
  constructor
  · intro hk
    rcases decode_error_or_ok w with hd | ⟨i, hd⟩
    · exact absurd ((decode_eq_error_iff w).mp hd) (not_isUnknown_of_matchesRow hk)
    · exact ⟨i, hd, row_unique (own i hd) hk⟩
  · rintro ⟨i, hd, rfl⟩
    exact own i hd

/-- Settles O3: a word that decodes matches its instruction's row; a word that matches a row decodes. -/
theorem decodeSelectsTheMatchingRow : Obligations.DecodeSelectsTheMatchingRow := by
  intro w
  refine ⟨matchesRow_iff_decode w, fun none => ?_, fun hd k => ?_⟩
  · refine (decode_error_or_ok w).resolve_right fun ⟨i, hd⟩ => ?_
    simpa [none] using (matchesRow_iff_decode w i.row).mpr ⟨i, hd, rfl⟩
  · rw [Bool.eq_false_iff]
    exact fun hk => not_isUnknown_of_matchesRow hk ((decode_eq_error_iff w).mp hd)

/-- Settles O5: each word decodes by computation. -/
theorem writtenOutWordsDecode : Obligations.WrittenOutWordsDecode := by
  unfold Obligations.WrittenOutWordsDecode
  decide

end Sys2Proof
end

section
/-! PROOF. The step against the decoder (O6, O8, O10), and the flag-setting additions and subtractions (O32, O33). -/

namespace Sys2Proof.Machine

/-! ### The step -/

/-- Settles O10: `step_eq` and `exec_eq` name the next state. -/
theorem everyStepAnswersNext : Obligations.EveryStepAnswersNext :=
  ⟨fun s => ⟨_, step_eq s⟩, fun i s => ⟨_, exec_eq i s⟩⟩

/-- Settles O6: the effect of the step is the instruction's. -/
theorem stepRunsTheDecodedInstruction : Obligations.StepRunsTheDecodedInstruction := by
  intro s i hs hd
  rw [step_eq, stepEffect_of_instr hs hd, exec_eq]

theorem State.advance_onlyChanges (s : State) : OnlyChanges [.pc] s s.advance := by
  intro p hp
  cases p with
  | pc => simp at hp
  | v | mem => exact fun _ => rfl
  | _ => rfl

theorem stepReport_of_unknown {s : State} {w : Word} (hs : s.status = .running)
    (hd : decode s.fetchWord = .error (.unknownOpcode w)) : stepReport s = some (.unknownOpcode w s.pc) := by
  simp [stepReport, s.halted_eq_false.mpr hs, hd]

/-- Settles O8: the step is `advance`, and the event is read off `stepReport`. -/
theorem unknownOpcodeIsSkipped : Obligations.UnknownOpcodeIsSkipped := fun s w hs hd =>
  ⟨stepReport_of_unknown hs hd, decode_error_word _ w hd, s.advance, step_of_unknown s _ hs hd,
    pcPlus_of_advance s _ rfl, s.advance_onlyChanges⟩

/-! ### The flag-setting instructions -/

theorem State.writeFlagThenV_advance_onlyChanges (s : State) (f : Bool) (x : Nibble) (b : Byte) :
    OnlyChanges [.v, .pc] s (s.writeFlagThenV f x b).advance := by
  intro p hp
  cases p with
  | v | pc => simp at hp
  | mem => exact fun _ => rfl
  | _ => rfl

theorem State.writeFlagThenV_advance_keepsVExcept (s : State) (f : Bool) (x : Nibble) (b : Byte) :
    KeepsVExcept [x, regF] s (s.writeFlagThenV f x b).advance := by
  intro j hj
  obtain ⟨hx, hf⟩ : j ≠ x ∧ j ≠ regF := by simpa using hj
  exact s.readV_writeFlagThenV_other f x j b hx hf

/-- What an instruction that ends in `writeFlagThenV` leaves, the result as a number and the flag as a proposition. -/
theorem State.writeFlagThenV_advance_post (s : State) (x : Nibble) {b : Byte} {n : Nat} (hb : b.toNat = n)
    (c : Prop) [Decidable c] :
    let t := (s.writeFlagThenV (decide c) x b).advance
    (t.readV x).toNat = n ∧ (x ≠ regF → t.readV regF = if c then 1#8 else 0#8) ∧
      KeepsVExcept [x, regF] s t ∧ PcPlus 2 s t ∧ OnlyChanges [.v, .pc] s t := by
  refine ⟨?_, fun hx => ?_, s.writeFlagThenV_advance_keepsVExcept _ x b, pcPlus_of_advance s _ rfl,
    s.writeFlagThenV_advance_onlyChanges _ x b⟩
  · rw [State.advance_readV, State.readV_writeFlagThenV_same, hb]
  · simp [State.readV_writeFlagThenV_flag _ _ _ _ hx, flagByte]

/-- Settles O32: the word is the encoding of `addReg`, and the carry is the flag. -/
theorem addRegisterWithCarry : Obligations.AddRegisterWithCarry := fun s x y =>
  ⟨encodeThenDecodeGivesInstr (.addReg x y), _, rfl, s.writeFlagThenV_advance_post x (BitVec.toNat_add ..) _⟩

/-- A difference as the spec writes it (R96, R98). -/
theorem toNat_sub_eq (a b : Byte) : (a - b).toNat = (a.toNat + 256 - b.toNat) % 256 := by
  rw [BitVec.toNat_sub]
  omega

/-- Settles O33: the words are the encodings of `subReg` and `subnReg`, and the flag is `noBorrow`. -/
theorem subtractsWithBorrow : Obligations.SubtractsWithBorrow := fun s x y =>
  ⟨⟨encodeThenDecodeGivesInstr (.subReg x y), _, rfl, s.writeFlagThenV_advance_post x (toNat_sub_eq ..) _⟩,
   ⟨encodeThenDecodeGivesInstr (.subnReg x y), _, rfl, s.writeFlagThenV_advance_post x (toNat_sub_eq ..) _⟩⟩

end Sys2Proof.Machine
end

section
/-! PROOF. The control transfer instructions: jumps, CALL and RET, and the skips (O24 to O29). -/

namespace Sys2Proof.Machine

/-! ### Frames -/

theorem SamePart.trans {s t u : State} {p : Part} (h : SamePart s t p) (h' : SamePart t u p) : SamePart s u p := by
  cases p with
  | v | mem => exact fun a => (h' a).trans (h a)
  | _ => exact Eq.trans h' h

theorem OnlyChanges.trans {ps qs : List Part} {s t u : State} (h : OnlyChanges ps s t) (h' : OnlyChanges qs t u) :
    OnlyChanges (ps ++ qs) s u := by
  intro p hp
  rw [List.mem_append, not_or] at hp
  exact (h p hp.1).trans (h' p hp.2)

/-- A piece of state that ends as it began can be left out of the frame. -/
theorem OnlyChanges.restrict {ps qs : List Part} {s t : State} (h : OnlyChanges ps s t)
    (same : ∀ p ∈ ps, p ∉ qs → SamePart s t p) : OnlyChanges qs s t := by
  intro p hq
  by_cases hp : p ∈ ps
  · exact same p hp hq
  · exact h p hp

theorem State.setPc_onlyChanges (s : State) (w : Word) : OnlyChanges [.pc] s (s.setPc w) := by
  intro p hp
  cases p with
  | pc => simp at hp
  | v | mem => exact fun _ => rfl
  | _ => rfl

theorem State.setStatus_onlyChanges (s : State) (c : Status) : OnlyChanges [.status] s (s.setStatus c) := by
  intro p hp
  cases p with
  | status => simp at hp
  | v | mem => exact fun _ => rfl
  | _ => rfl

theorem State.setStack_onlyChanges (s : State) (entries : Vector Word 16) (sp : Fin 17) :
    OnlyChanges [.stack, .sp] s (s.setStack entries sp) := by
  intro p hp
  cases p with
  | stack | sp => simp at hp
  | v | mem => exact fun _ => rfl
  | _ => rfl

/-- Writing the entries back as they are changes SP alone. -/
theorem State.setStack_self_onlyChanges (s : State) (sp : Fin 17) : OnlyChanges [.sp] s (s.setStack s.stack sp) := by
  refine (s.setStack_onlyChanges s.stack sp).restrict fun p hp hq => ?_
  obtain rfl : p = .stack := by simp_all
  rfl

/-- An instruction's own word does what its effect does. -/
theorem does_encode {i : Instr} {s : State} {post : State → Prop} (h : post ((effectOf s i).apply s)) :
    Does (encode i) i s post :=
  ⟨encodeThenDecodeGivesInstr i, _, exec_eq i s, h⟩

/-! ### Jumps -/

theorem setPc_addrWord_pc_toNat (s : State) (nnn : Addr) : (s.setPc (addrWord nnn)).pc.toNat = nnn.toNat := by
  rw [State.setPc_pc_toNat, addrWord_toNat, Nat.mod_eq_of_lt nnn.isLt]

theorem setPc_addrWord_add_pc_toNat (s : State) (nnn : Addr) (b : Byte) :
    (s.setPc (addrWord nnn + byteWord b)).pc.toNat = (nnn.toNat + b.toNat) % 4096 := by
  rw [State.setPc_pc_toNat, BitVec.toNat_add, addrWord_toNat, byteWord_toNat]
  omega

/-- Writing the PC it already has leaves the state as it was. -/
theorem State.setPc_eq_self {s : State} {w : Word} (h : (s.setPc w).pc.toNat = s.pc.toNat) : s.setPc w = s := by
  have hpc : w % 4096#16 = s.pc := BitVec.eq_of_toNat_eq h
  rw [State.setPc, hpc]

theorem step_of_self_jump {s : State} {nnn : Addr} (hpc : s.pc.toNat = nnn.toNat)
    (hd : decode s.fetchWord = .ok (.jp nnn)) : step s = .next s := by
  by_cases hs : s.status = .running
  · rw [stepRunsTheDecodedInstruction s _ hs hd, exec_eq]
    exact congrArg _ (State.setPc_eq_self ((setPc_addrWord_pc_toNat s nnn).trans hpc.symm))
  · exact step_of_halted s hs

/-- Settles O24: both jumps are `setPc`. -/
theorem jumpsSetPc : Obligations.JumpsSetPc := fun s nnn =>
  ⟨does_encode (i := .jp nnn) ⟨setPc_addrWord_pc_toNat s nnn, s.setPc_onlyChanges _⟩,
   does_encode (i := .jpV0 nnn) ⟨setPc_addrWord_add_pc_toNat s nnn _, s.setPc_onlyChanges _⟩,
   step_of_self_jump⟩

/-! ### CALL and RET -/

theorem effectOf_call_of_room {s : State} (nnn : Addr) (h : s.sp.val < 16) :
    effectOf s (.call nnn) = .call ⟨s.sp.val, h⟩ nnn := dif_pos h

theorem effectOf_call_of_full {s : State} (nnn : Addr) (h : s.sp.val = 16) :
    effectOf s (.call nnn) = .fault .stackOverflow := dif_neg (by omega)

theorem effectOf_ret_of_succ {s : State} {k : Fin 16} (h : s.sp.val = k.val + 1) : effectOf s .ret = .ret k := by
  have hpos : 0 < s.sp.val := by omega
  have hk : (⟨s.sp.val - 1, by omega⟩ : Fin 16) = k := Fin.ext (by simp [h])
  simp only [effectOf, hpos, dite_true, hk]

theorem effectOf_ret_of_empty {s : State} (h : s.sp.val = 0) : effectOf s .ret = .fault .stackUnderflow :=
  dif_neg (by omega)

/-- What CALL leaves in the stack: the pushed entry, and the others as they were. -/
theorem Effect.call_stack (s : State) (top : Fin 16) (nnn : Addr) (k : Fin 16) :
    ((Effect.call top nnn).apply s).stack[k] = if k.val = top.val then s.pc else s.stack[k] := by
  show (s.stack.set top.val s.pc top.isLt)[k.val] = _
  rw [Vector.getElem_set]
  exact if_congr eq_comm rfl rfl

theorem Effect.call_onlyChanges (s : State) (top : Fin 16) (nnn : Addr) :
    OnlyChanges [.stack, .sp, .pc] s ((Effect.call top nnn).apply s) :=
  (s.setStack_onlyChanges _ _).trans (State.setPc_onlyChanges _ _)

theorem Effect.ret_pc_toNat (s : State) (top : Fin 16) :
    ((Effect.ret top).apply s).pc.toNat = (s.stack[top].toNat + 2) % 4096 := by
  show ((s.setStack s.stack top.castSucc).setPc (s.stack[top] + 2#16)).pc.toNat = _
  rw [State.setPc_pc_toNat, BitVec.toNat_add, BitVec.toNat_ofNat]
  omega

theorem Effect.ret_onlyChanges (s : State) (top : Fin 16) : OnlyChanges [.sp, .pc] s ((Effect.ret top).apply s) :=
  (s.setStack_self_onlyChanges _).trans (State.setPc_onlyChanges _ _)

/-- Settles O25: with room the effect is `call`, with a full stack it is `fault`. -/
theorem callPushesItsOwnAddress : Obligations.CallPushesItsOwnAddress := by
  intro s nnn
  refine ⟨fun h => does_encode (i := .call nnn) ?_, fun h => does_encode (i := .call nnn) ?_⟩
  · rw [effectOf_call_of_room nnn h]
    exact ⟨Effect.call_stack s _ nnn, rfl, setPc_addrWord_pc_toNat _ nnn, Effect.call_onlyChanges s _ nnn⟩
  · rw [effectOf_call_of_full nnn h]
    exact ⟨rfl, s.setStatus_onlyChanges _⟩

/-- Settles O26: with an entry the effect is `ret`, with an empty stack it is `fault`. -/
theorem retReturnsPastTheCall : Obligations.RetReturnsPastTheCall := by
  intro s
  refine ⟨fun k h => does_encode (i := .ret) ?_, fun h => does_encode (i := .ret) ?_⟩
  · rw [effectOf_ret_of_succ h]
    exact ⟨rfl, Effect.ret_pc_toNat s k, Effect.ret_onlyChanges s k⟩
  · rw [effectOf_ret_of_empty h]
    exact ⟨rfl, s.setStatus_onlyChanges _⟩

/-- Settles O27: by O25 the entry that RET pops by O26 is the one CALL pushed, the address of the CALL. -/
theorem callThenRetComesBack : Obligations.CallThenRetComesBack := by
  intro s nnn h
  obtain ⟨_, t, ht, hstack, htsp, _, hcall⟩ := (callPushesItsOwnAddress s nnn).1 h
  obtain ⟨_, u, hu, husp, hupc, hret⟩ := (retReturnsPastTheCall t).1 ⟨s.sp.val, h⟩ htsp
  have hsp : u.sp = s.sp := Fin.ext husp
  refine ⟨t, u, ht, hu, ?_, hsp, (hcall.trans hret).restrict fun p hp hq => ?_⟩
  · rw [hstack, if_pos rfl] at hupc
    exact hupc
  · obtain rfl : p = .sp := by simp_all
    exact hsp

/-! ### Skips -/

/-- What every conditional skip does, with its condition as a proposition. -/
theorem does_skip {i : Instr} {s : State} {b : Bool} {c : Prop} [Decidable c] (hi : effectOf s i = .skip b)
    (hb : b = decide c) :
    Does (encode i) i s fun t => PcPlus (if c then 4 else 2) s t ∧ OnlyChanges [.pc] s t := by
  apply does_encode
  rw [hi]
  exact ⟨pcPlus_of_skipIf s c b hb, s.setPc_onlyChanges _⟩

theorem bne_eq_decide_ne (a b : Byte) : (a != b) = decide (a ≠ b) := by
  rw [bne, beq_eq_decide, decide_not]

/-- Settles O28: the effects of both instructions are `skip`. -/
theorem immediateSkips : Obligations.ImmediateSkips := fun _ x nn =>
  ⟨does_skip (i := .seImm x nn) rfl (beq_eq_decide ..), does_skip (i := .sneImm x nn) rfl (bne_eq_decide_ne ..)⟩

/-- Settles O29: the effects of both instructions are `skip`, and they do not depend on the low nibble. -/
theorem registerSkips : Obligations.RegisterSkips := fun _ x y z =>
  ⟨does_skip (i := .seReg x y z) rfl (beq_eq_decide ..), does_skip (i := .sneReg x y z) rfl (bne_eq_decide_ne ..)⟩

end Sys2Proof.Machine
end

section
/-! PROOF. The loads, the immediate addition, the bitwise operations and the shifts (O30, O31, O34). -/

namespace Sys2Proof.Machine

/-! ### The instructions that write VX alone -/

theorem State.writeV_onlyChanges (s : State) (x : Nibble) (b : Byte) : OnlyChanges [.v] s (s.writeV x b) := by
  intro p hp
  cases p with
  | v => simp at hp
  | mem => exact fun _ => rfl
  | _ => rfl

theorem State.writeV_keepsVExcept (s : State) (x : Nibble) (b : Byte) : KeepsVExcept [x] s (s.writeV x b) :=
  fun j hj => s.readV_writeV_ne x j b (List.mem_singleton.not.mp hj)

/-- What every instruction that writes VX alone does, with `post` for what it says of the byte written. -/
theorem does_setV {i : Instr} {s : State} {x : Nibble} {b : Byte} {post : State → Prop}
    (hi : effectOf s i = .setV x b) (hpost : ∀ t : State, t.readV x = b → post t) :
    Does (encode i) i s fun t => post t ∧ KeepsVExcept [x] s t ∧ PcPlus 2 s t ∧ OnlyChanges [.v, .pc] s t := by
  apply does_encode
  rw [hi]
  exact ⟨hpost _ (s.readV_writeV_same x b), s.writeV_keepsVExcept x b, pcPlus_of_advance s _ rfl,
    (s.writeV_onlyChanges x b).trans (State.advance_onlyChanges _)⟩

/-- Settles O30: the effects of the three instructions are `setV`. -/
theorem loadsAndAddImmediate : Obligations.LoadsAndAddImmediate := fun _ x y nn =>
  ⟨does_setV (i := .ldImm x nn) rfl fun _ h => h,
   does_setV (i := .addImm x nn) rfl fun _ h => h ▸ BitVec.toNat_add ..,
   does_setV (i := .ldReg x y) rfl fun _ h => h⟩

/-- Settles O31: the effects of the three instructions are `setV` of a bitwise operation. -/
theorem bitwiseOperations : Obligations.BitwiseOperations := fun _ x y =>
  ⟨does_setV (i := .orReg x y) rfl fun _ h _ => h ▸ BitVec.getLsbD_or,
   does_setV (i := .andReg x y) rfl fun _ h _ => h ▸ BitVec.getLsbD_and,
   does_setV (i := .xorReg x y) rfl fun _ h _ => h ▸ BitVec.getLsbD_xor⟩

/-! ### The shifts -/

theorem flagByte_toNat (f : Bool) : (flagByte f).toNat = f.toNat := by
  cases f <;> rfl

theorem shiftedOutRight_toNat (b : Byte) : (shiftedOutRight b).toNat = b.toNat % 2 := by
  rw [shiftedOutRight, BitVec.getLsbD, Nat.toNat_testBit, Nat.pow_zero, Nat.div_one]

theorem shiftedOutLeft_toNat (b : Byte) : (shiftedOutLeft b).toNat = b.toNat / 128 := by
  rw [shiftedOutLeft, BitVec.getLsbD, Nat.toNat_testBit]
  exact Nat.mod_eq_of_lt (Nat.div_lt_of_lt_mul b.isLt)

theorem toNat_ushiftRight_one (b : Byte) : (b >>> 1).toNat = b.toNat / 2 := by
  rw [BitVec.toNat_ushiftRight, Nat.shiftRight_one]

theorem toNat_shiftLeft_one (b : Byte) : (b <<< 1).toNat = b.toNat * 2 % 256 := by
  rw [BitVec.toNat_shiftLeft, Nat.shiftLeft_eq]

/-- What an instruction that writes a flag and then VX does, the result and the flag both as numbers. -/
theorem does_setFlagV {i : Instr} {s : State} {f : Bool} {x : Nibble} {b : Byte} {n m : Nat}
    (hi : effectOf s i = .setFlagV f x b) (hb : b.toNat = n) (hf : f.toNat = m) :
    Does (encode i) i s fun t => (t.readV x).toNat = n ∧ (x ≠ regF → (t.readV regF).toNat = m) ∧
      KeepsVExcept [x, regF] s t ∧ PcPlus 2 s t ∧ OnlyChanges [.v, .pc] s t := by
  have h := s.writeFlagThenV_advance_post x hb (f = true)
  rw [Bool.decide_eq_true] at h
  obtain ⟨hresult, hflag, hframe⟩ := h
  apply does_encode
  rw [hi]
  refine ⟨hresult, fun hx => ?_, hframe⟩
  calc _ = (flagByte f).toNat := congrArg BitVec.toNat (hflag hx)
    _ = m := (flagByte_toNat f).trans hf

/-- Settles O34: the effects of both shifts are `setFlagV`, with the source `shiftSource`. -/
theorem shiftsByOne : Obligations.ShiftsByOne := by
  intro s x y src hsrc
  obtain rfl : src = s.shiftSource x y := hsrc
  exact ⟨does_setFlagV (i := .shrReg x y) rfl (toNat_ushiftRight_one _) (shiftedOutRight_toNat _),
    does_setFlagV (i := .shlReg x y) rfl (toNat_shiftLeft_one _) (shiftedOutLeft_toNat _)⟩

end Sys2Proof.Machine
end

section
/-! PROOF. The index register and the memory instructions (O36 to O40): loading, adding to and pointing I, and the block
writes and reads at I. -/

namespace Sys2Proof.Machine

/-! ### The index register -/

/-- What an instruction that writes I alone and moves on leaves, I as a number. -/
theorem State.setI_advance_post (s : State) {w : Word} {n : Nat} (hw : w.toNat = n) :
    let t := (s.setI w).advance
    t.i.toNat = n ∧ PcPlus 2 s t ∧ OnlyChanges [.i, .pc] s t :=
  ⟨hw, pcPlus_of_advance s _ rfl, s.setI_advance_onlyChanges w⟩

/-- The address of a glyph does not wrap at 65536: FONT_BASE is below 4096. -/
theorem State.glyphAddr_toNat (s : State) (d : Nibble) :
    (s.glyphAddr d).toNat = s.cfg.fontBase.toNat + 5 * d.toNat := by
  rw [State.glyphAddr, BitVec.toNat_ofNat]
  omega

theorem toNat_add_byteWord (w : Word) (b : Byte) : (w + byteWord b).toNat = (w.toNat + b.toNat) % 65536 := by
  rw [BitVec.toNat_add, byteWord_toNat]

/-- Settles O36: both instructions are `setI`. -/
theorem loadAndAddIndexRegister : Obligations.LoadAndAddIndexRegister := fun s x nnn =>
  ⟨⟨encodeThenDecodeGivesInstr (.ldI nnn), _, rfl, s.setI_advance_post (addrWord_toNat nnn)⟩,
   ⟨encodeThenDecodeGivesInstr (.addI x), _, rfl, s.setI_advance_post (toNat_add_byteWord _ _)⟩⟩

/-- Settles O37: the instruction is `setI` of the glyph's address, and the digit is the low nibble. -/
theorem glyphAddress : Obligations.GlyphAddress := fun s x =>
  ⟨encodeThenDecodeGivesInstr (.ldF x), _, rfl,
    s.setI_advance_post ((s.glyphAddr_toNat _).trans (by rw [lowNibble_toNat]))⟩

/-! ### Stores -/

theorem State.memWriteBlock_onlyChanges (s : State) (base : Nat) (bytes : List Byte) :
    OnlyChanges [.mem] s (s.memWriteBlock base bytes) := by
  intro p hp
  cases p with
  | mem => simp at hp
  | v => exact s.memWriteBlock_readV base bytes
  | _ => simp [SamePart]

/-- What a block write that moves on does beside the block: PC and the frame. -/
theorem State.memWriteBlock_advance_frame (s : State) (base : Nat) (bytes : List Byte) :
    let t := (s.memWriteBlock base bytes).advance
    PcPlus 2 s t ∧ OnlyChanges [.mem, .pc] s t :=
  ⟨pcPlus_of_advance s _ (by simp), (s.memWriteBlock_onlyChanges base bytes).trans (State.advance_onlyChanges _)⟩

/-- The digits that FX33 stores, as numbers (R113). -/
theorem bcdDigits_toNat (b : Byte) :
    (bcdDigits b).map BitVec.toNat = [b.toNat / 100, b.toNat / 10 % 10, b.toNat % 10] := by
  simp [bcdDigits]

/-- After the block write of FX33 the address `base + k` holds digit `k`. -/
theorem State.memRead_memWriteBlock_bcdDigits (s : State) (base : Nat) (b : Byte) (k : Fin 3) :
    ((s.memWriteBlock base (bcdDigits b)).memRead (base + k.val)).toNat =
      [b.toNat / 100, b.toNat / 10 % 10, b.toNat % 10][k] := by
  have hk : k.val < (bcdDigits b).length := k.isLt
  rw [s.memRead_memWriteBlock_inside base (bcdDigits b) k.val hk (by simp [bcdDigits])]
  simp only [← bcdDigits_toNat, Fin.getElem_fin, List.getElem_map]

/-- Settles O38: the three bytes of the block are the digits, and the block is I, I + 1, I + 2. -/
theorem storeBcdDigits : Obligations.StoreBcdDigits := by
  intro s x
  have hdigit := s.memRead_memWriteBlock_bcdDigits s.i.toNat (s.readV x)
  exact ⟨encodeThenDecodeGivesInstr (.ldB x), _, rfl, hdigit 0, hdigit 1, hdigit 2,
    s.memRead_memWriteBlock_outside s.i.toNat (bcdDigits (s.readV x)), s.memWriteBlock_advance_frame _ _⟩

/-- Settles O39: the block holds V0 to VX, and its length is X + 1. -/
theorem storeRegisterBlock : Obligations.StoreRegisterBlock := by
  intro s x
  refine ⟨encodeThenDecodeGivesInstr (.storeRegs x), _, rfl,
    fun k hk => s.memRead_memWriteBlock_readVs hk rfl, fun a houtside => ?_, s.memWriteBlock_advance_frame _ _⟩
  refine s.memRead_memWriteBlock_outside s.i.toNat (s.readVs x) a fun k hk => houtside k ?_
  rw [s.readVs_length] at hk
  exact Nat.le_of_lt_succ hk

/-! ### Loads -/

theorem State.writeVs_onlyChanges (s : State) (k : Nat) (bytes : List Byte) :
    OnlyChanges [.v] s (s.writeVs k bytes) := by
  intro p hp
  cases p with
  | v => simp at hp
  | mem => exact s.writeVs_memRead k bytes
  | _ => simp [SamePart]

/-- After a register block write from V0 on, register `k` holds byte `k` of the block, or is past it and kept. -/
theorem State.readV_writeVs_zero (s : State) (bytes : List Byte) (hlen : bytes.length ≤ 16) (k : Nibble) :
    (s.writeVs 0 bytes).readV k = if h : k.toNat < bytes.length then bytes[k.toNat] else s.readV k := by
  by_cases h : k.toNat < bytes.length
  · have hread := s.readV_writeVs_inside 0 bytes k.toNat h (by omega)
    rw [Nat.zero_add, BitVec.ofNat_toNat, BitVec.setWidth_eq] at hread
    rw [dif_pos h, hread]
  · rw [dif_neg h, s.readV_writeVs_outside 0 bytes k (.inr (by omega)) (by omega)]

/-- Settles O40: byte `k` of the block that is written into the registers is the byte at I + k. -/
theorem loadRegisterBlock : Obligations.LoadRegisterBlock := by
  intro s x
  refine ⟨encodeThenDecodeGivesInstr (.loadRegs x), _, rfl, fun k => ?_, pcPlus_of_advance s _ (by simp),
    (s.writeVs_onlyChanges _ _).trans (State.advance_onlyChanges _)⟩
  have hx := x.isLt
  rw [State.advance_readV, State.readV_writeVs_zero _ _ (by rw [s.memReadBlock_length]; omega)]
  simp only [s.memReadBlock_length, s.memReadBlock_getElem, Nat.lt_succ_iff, dite_eq_ite]

end Sys2Proof.Machine
end

section
/-! PROOF. The display instructions (O41 to O43). The loop of DXYN is its closed form (43_display.md R121): the rows of a
sprite change exactly the cells they cover, because no two set bits land on one cell. -/

namespace Sys2Proof.Machine

/-! ### The cells that a sprite covers -/

/-- Some set bit of the sprite row, drawn at column `x0` and row `y`, lands on the cell. -/
def RowCovers (wrap : Bool) (x0 y : Nat) (row : Byte) (cx : Fin 64) (cy : Fin 32) : Prop :=
  ∃ c, c < 8 ∧ row.getLsbD (7 - c) = true ∧ Lands wrap (x0 + c) y cx cy

/-- Some sprite row of the list, drawn one below the other from row `y`, covers the cell. -/
def RowsCover (wrap : Bool) (x0 y : Nat) (rows : List Byte) (cx : Fin 64) (cy : Fin 32) : Prop :=
  ∃ r, ∃ h : r < rows.length, RowCovers wrap x0 (y + r) rows[r] cx cy

section
variable {wrap : Bool} {x0 y : Nat} {row : Byte} {rest : List Byte} {cx : Fin 64} {cy : Fin 32}

theorem not_rowsCover_nil : ¬ RowsCover wrap x0 y [] cx cy :=
  fun ⟨_, h, _⟩ => Nat.not_lt_zero _ h

theorem rowsCover_cons :
    RowsCover wrap x0 y (row :: rest) cx cy ↔ RowCovers wrap x0 y row cx cy ∨ RowsCover wrap x0 (y + 1) rest cx cy := by
  constructor
  · rintro ⟨r, hr, h⟩
    cases r with
    | zero => exact .inl h
    | succ r => exact .inr ⟨r, Nat.lt_of_succ_lt_succ hr, by rwa [← Nat.add_assoc, Nat.add_right_comm] at h⟩
  · rintro (h | ⟨r, hr, h⟩)
    · exact ⟨0, Nat.zero_lt_succ _, h⟩
    · exact ⟨r + 1, Nat.succ_lt_succ hr, by rwa [Nat.add_right_comm] at h⟩

theorem Lands.row_mod {x : Nat} (h : Lands wrap x y cx cy) : y % 32 = cy.val := by
  have := cy.isLt
  cases wrap with
  | true => exact h.2
  | false => rw [h.2, Nat.mod_eq_of_lt this]

/-- Fewer than 32 rows further down do not come back to the row of the first. -/
theorem RowCovers.not_rowsCover_below (h : RowCovers wrap x0 y row cx cy) (hlen : rest.length < 32) :
    ¬ RowsCover wrap x0 (y + 1) rest cx cy := by
  obtain ⟨_, _, _, hfirst⟩ := h
  rintro ⟨r, hr, _, _, _, hlater⟩
  have hfirst := hfirst.row_mod
  have hlater := hlater.row_mod
  omega

end

/-! ### The loop is its closed form -/

section
variable {wrap : Bool} {x0 : Nat} {rows : List Byte}

/-- A sprite row changes exactly the cells it covers. -/
theorem pixel_drawRow_ne_iff (y : Nat) (row : Byte) (acc : Display × Bool) (cx : Fin 64) (cy : Fin 32) :
    pixel (drawRow wrap x0 y row acc).1 cx cy ≠ pixel acc.1 cx cy ↔ RowCovers wrap x0 y row cx cy := by
  obtain ⟨hflip, hkeep⟩ := pixel_drawRow wrap x0 y row acc cx cy
  refine ⟨fun hne => by_contra fun h => hne (hkeep h), fun h => ?_⟩
  rw [hflip h]
  exact Bool.not_ne_self _

/-- A sprite row collides exactly when it covers a cell that was on. -/
theorem collision_drawRow_iff (y : Nat) (row : Byte) (acc : Display × Bool) :
    (drawRow wrap x0 y row acc).2 = true ↔
      acc.2 = true ∨ ∃ cx cy, pixel acc.1 cx cy = true ∧ RowCovers wrap x0 y row cx cy := by
  rw [collision_drawRow]
  refine or_congr_right ⟨?_, ?_⟩
  · rintro ⟨c, hc, hbit, cx, cy, hlands, hon⟩
    exact ⟨cx, cy, hon, c, hc, hbit, hlands⟩
  · rintro ⟨cx, cy, hon, c, hc, hbit, hlands⟩
    exact ⟨c, hc, hbit, cx, cy, hlands, hon⟩

/-- At most 32 sprite rows change exactly the cells they cover. -/
theorem pixel_drawRows_ne_iff (hlen : rows.length ≤ 32) (y : Nat) (acc : Display × Bool) (cx : Fin 64) (cy : Fin 32) :
    pixel (drawRows wrap x0 y rows acc).1 cx cy ≠ pixel acc.1 cx cy ↔ RowsCover wrap x0 y rows cx cy := by
  induction rows generalizing y acc with
  | nil => exact iff_of_false (fun h => h rfl) not_rowsCover_nil
  | cons row rest ih =>
    have hfirst := pixel_drawRow_ne_iff (wrap := wrap) (x0 := x0) y row acc cx cy
    have hrest := ih (Nat.le_of_succ_le hlen) (y + 1) (drawRow wrap x0 y row acc)
    rw [drawRows, rowsCover_cons]
    by_cases h : RowCovers wrap x0 y row cx cy
    · have hkept := not_ne_iff.mp (hrest.not.mpr (h.not_rowsCover_below hlen))
      rw [hkept]
      exact iff_of_true (hfirst.mpr h) (.inl h)
    · rw [← not_ne_iff.mp (hfirst.not.mpr h), hrest, or_iff_right h]

/-- At most 32 sprite rows collide exactly when they cover a cell that was on before the first of them. -/
theorem collision_drawRows (hlen : rows.length ≤ 32) (y : Nat) (acc : Display × Bool) :
    (drawRows wrap x0 y rows acc).2 = true ↔
      acc.2 = true ∨ ∃ cx cy, pixel acc.1 cx cy = true ∧ RowsCover wrap x0 y rows cx cy := by
  induction rows generalizing y acc with
  | nil => simp [drawRows, not_rowsCover_nil]
  | cons row rest ih =>
    have hbelow (cx cy) : pixel (drawRow wrap x0 y row acc).1 cx cy = true ∧ RowsCover wrap x0 (y + 1) rest cx cy ↔
        pixel acc.1 cx cy = true ∧ RowsCover wrap x0 (y + 1) rest cx cy := by
      refine and_congr_left fun h => ?_
      have hnot : ¬ RowCovers wrap x0 y row cx cy := fun h' => h'.not_rowsCover_below hlen h
      rw [not_ne_iff.mp ((pixel_drawRow_ne_iff y row acc cx cy).not.mpr hnot)]
    rw [drawRows, ih (Nat.le_of_succ_le hlen), collision_drawRow_iff]
    simp only [hbelow, rowsCover_cons, and_or_left, exists_or, or_assoc]

end

/-! ### DXYN -/

/-- The display and the collision that the sprite of DXYN gives. -/
def State.drawSprite (s : State) (x y n : Nibble) : Display × Bool :=
  drawRows s.cfg.spriteWrap (s.originX x) (s.originY y) (s.memReadBlock s.i.toNat n.toNat) (s.disp, false)

/-- The state DXYN leaves. -/
def State.afterDraw (s : State) (x y n : Nibble) : State :=
  ((s.writeV regF (flagByte (s.drawSprite x y n).2)).setDisplay (s.drawSprite x y n).1).advance

theorem exec_drw (x y n : Nibble) (s : State) : exec (.drw x y n) s = .next (s.afterDraw x y n) := rfl

theorem spriteCovers_iff (s : State) (x y n : Nibble) (cx : Fin 64) (cy : Fin 32) :
    SpriteCovers s x y n cx cy ↔
      RowsCover s.cfg.spriteWrap (s.originX x) (s.originY y) (s.memReadBlock s.i.toNat n.toNat) cx cy := by
  constructor
  · rintro ⟨r, c, hr, hc, hbit, hlands⟩
    have hr' : r < (s.memReadBlock s.i.toNat n.toNat).length := by rwa [s.memReadBlock_length]
    exact ⟨r, hr', c, hc, by rwa [s.memReadBlock_getElem], hlands⟩
  · rintro ⟨r, hr, c, hc, hbit, hlands⟩
    rw [s.memReadBlock_getElem] at hbit
    rw [s.memReadBlock_length] at hr
    exact ⟨r, c, hr, hc, hbit, hlands⟩

theorem State.memReadBlock_nibble_length_le (s : State) (base : Nat) (n : Nibble) :
    (s.memReadBlock base n.toNat).length ≤ 32 := by
  have := n.isLt
  rw [s.memReadBlock_length]
  omega

/-- DXYN changes exactly the cells its sprite covers. -/
theorem State.pixel_afterDraw_ne_iff (s : State) (x y n : Nibble) (cx : Fin 64) (cy : Fin 32) :
    pixel (s.afterDraw x y n).disp cx cy ≠ pixel s.disp cx cy ↔ SpriteCovers s x y n cx cy := by
  rw [spriteCovers_iff]
  exact pixel_drawRows_ne_iff (s.memReadBlock_nibble_length_le _ n) _ _ cx cy

theorem State.collision_drawSprite (s : State) (x y n : Nibble) :
    (s.drawSprite x y n).2 = true ↔ ∃ cx cy, pixel s.disp cx cy = true ∧ SpriteCovers s x y n cx cy := by
  rw [State.drawSprite, collision_drawRows (s.memReadBlock_nibble_length_le _ n)]
  simp only [spriteCovers_iff, Bool.false_eq_true, false_or]

/-- VF after DXYN, with `c` for what is known of the collision. -/
theorem State.readV_regF_afterDraw {s : State} {x y n : Nibble} {c : Prop}
    (hc : (∃ cx cy, pixel s.disp cx cy = true ∧ SpriteCovers s x y n cx cy) ↔ c) :
    (c → (s.afterDraw x y n).readV regF = 1#8) ∧ (¬ c → (s.afterDraw x y n).readV regF = 0#8) := by
  have hflag : (s.afterDraw x y n).readV regF = flagByte (s.drawSprite x y n).2 := s.readV_writeV_same regF _
  rw [hflag, ← hc, ← s.collision_drawSprite]
  cases (s.drawSprite x y n).2 <;> simp [flagByte]

theorem State.setDisplay_onlyChanges (s : State) (d : Display) : OnlyChanges [.disp, .dirty] s (s.setDisplay d) := by
  intro p hp
  cases p with
  | disp | dirty => simp at hp
  | v | mem => exact fun _ => rfl
  | _ => rfl

/-- Settles O41: the display is `blankDisplay`. -/
theorem clearDisplay : Obligations.ClearDisplay := fun s =>
  ⟨encodeThenDecodeGivesInstr .cls, _, rfl, pixel_blankDisplay, rfl, pcPlus_of_advance s _ rfl,
    (s.setDisplay_onlyChanges blankDisplay).trans (State.advance_onlyChanges _)⟩

/-- Settles O42: the loop changes the covered cells and no other, and its collision is what VF shows. -/
theorem drawIsItsClosedForm : Obligations.DrawIsItsClosedForm := by
  intro s x y n
  obtain ⟨hcollision, hnone⟩ := State.readV_regF_afterDraw (s := s) (x := x) (y := y) (n := n) Iff.rfl
  have hpixel := s.pixel_afterDraw_ne_iff x y n
  exact ⟨encodeThenDecodeGivesInstr (.drw x y n), _, exec_drw x y n s,
    fun cx cy h => Bool.eq_not.mpr ((hpixel cx cy).mpr h), fun cx cy h => not_ne_iff.mp ((hpixel cx cy).not.mpr h),
    hcollision, hnone, rfl, s.writeV_keepsVExcept regF _, pcPlus_of_advance s _ rfl,
    ((s.writeV_onlyChanges regF _).trans (State.setDisplay_onlyChanges _ _)).trans (State.advance_onlyChanges _)⟩

/-! ### The identical sprite, twice -/

theorem display_ext {d e : Display} (h : ∀ cx cy, pixel d cx cy = pixel e cx cy) : d = e :=
  Vector.ext fun i hi => Vector.ext fun j hj => h ⟨i, hi⟩ ⟨j, hj⟩

/-- DXYN keeps I, memory and the configuration: at the same origin the sprite covers the same cells. -/
theorem spriteCovers_afterDraw {s : State} {x y n : Nibble} (hx : (s.afterDraw x y n).readV x = s.readV x)
    (hy : (s.afterDraw x y n).readV y = s.readV y) (cx : Fin 64) (cy : Fin 32) :
    SpriteCovers (s.afterDraw x y n) x y n cx cy ↔ SpriteCovers s x y n cx cy := by
  unfold SpriteCovers
  rw [hx, hy]
  rfl

/-- Settles O43: both draws change the same cells, so that the second undoes the first; on a clear display the first
turns on exactly the covered cells, with which the second collides. -/
theorem drawTwiceRestores : Obligations.DrawTwiceRestores := by
  intro s x y n
  refine ⟨_, _, exec_drw x y n s, exec_drw x y n _, fun hx hy => ?_⟩
  have hcovers := spriteCovers_afterDraw hx hy
  have hfirst := s.pixel_afterDraw_ne_iff x y n
  have hsecond := (s.afterDraw x y n).pixel_afterDraw_ne_iff x y n
  refine ⟨display_ext fun cx cy => ?_, fun hblank => ⟨?_, ?_⟩⟩
  · have hsame := (hsecond cx cy).trans ((hcovers cx cy).trans (hfirst cx cy).symm)
    by_cases h : pixel (s.afterDraw x y n).disp cx cy = pixel s.disp cx cy
    · rw [not_ne_iff.mp (hsame.not.mpr (not_ne_iff.mpr h)), h]
    · rw [Bool.eq_not.mpr (hsame.mpr h), Bool.eq_not.mpr h, Bool.not_not]
  · refine (State.readV_regF_afterDraw Iff.rfl).2 ?_
    simp [hblank]
  · refine State.readV_regF_afterDraw (exists_congr fun cx => exists_congr fun cy => ?_)
    have hon : pixel (s.afterDraw x y n).disp cx cy = true ↔ SpriteCovers s x y n cx cy := by
      simpa [hblank] using hfirst cx cy
    rw [hon, hcovers, and_self]

end Sys2Proof.Machine
end

section
/-! PROOF. The keypad and timer instructions (O44 to O46). -/

namespace Sys2Proof.Machine

/-! ### Key skips -/

/-- R130's masked index: the low nibble of VX is the key VX modulo 16. -/
theorem lowNibble_eq_of_toNat {b : Byte} {k : Nibble} (h : k.toNat = b.toNat % 16) : lowNibble b = k :=
  BitVec.eq_of_toNat_eq ((lowNibble_toNat b).trans h.symm)

/-- Settles O44: the effects of both instructions are `skip`, of the same key. -/
theorem keySkips : Obligations.KeySkips := by
  intro s x k hk
  obtain rfl := lowNibble_eq_of_toNat hk
  exact ⟨does_skip (i := .skp x) rfl Bool.decide_eq_true.symm,
    does_skip (i := .sknp x) rfl Bool.decide_eq_false.symm⟩

/-! ### Timers -/

theorem State.setDt_onlyChanges (s : State) (b : Byte) : OnlyChanges [.dt] s (s.setDt b) := by
  intro p hp
  cases p with
  | dt => simp at hp
  | v | mem => exact fun _ => rfl
  | _ => rfl

theorem State.setSt_onlyChanges (s : State) (b : Byte) : OnlyChanges [.st] s (s.setSt b) := by
  intro p hp
  cases p with
  | st => simp at hp
  | v | mem => exact fun _ => rfl
  | _ => rfl

/-- Settles O45: FX07 is `setV` of DT, FX15 and FX18 are `setDt` and `setSt` of VX. -/
theorem timerMoves : Obligations.TimerMoves := fun s x =>
  ⟨does_setV (i := .ldVxDt x) rfl fun _ h => h,
   does_encode (i := .ldDtVx x)
    ⟨rfl, pcPlus_of_advance s _ rfl, (s.setDt_onlyChanges _).trans (State.advance_onlyChanges _)⟩,
   does_encode (i := .ldStVx x)
    ⟨rfl, pcPlus_of_advance s _ rfl, (s.setSt_onlyChanges _).trans (State.advance_onlyChanges _)⟩⟩

/-! ### Waiting for a key -/

theorem effectOf_ldVxK_of_some {s : State} {k : Nibble} (x : Nibble) (h : s.firstKey = some k) :
    effectOf s (.ldVxK x) = .setV x (k.setWidth 8) := by
  simp [effectOf, h]

theorem effectOf_ldVxK_of_none {s : State} (x : Nibble) (h : s.firstKey = none) :
    effectOf s (.ldVxK x) = .stay := by
  simp [effectOf, h]

/-- Settles O46: with a key pressed the effect is `setV` of the key that `firstKey` finds, without one it is `stay`. -/
theorem waitForKeyTakesTheLowest : Obligations.WaitForKeyTakesTheLowest := by
  refine fun s x => ⟨fun k hdown hlow => ?_, fun hnone => ?_⟩
  · have heffect := effectOf_ldVxK_of_some x (s.firstKey_eq_some k hdown hlow)
    exact does_setV (i := .ldVxK x) heffect fun _ hread => hread ▸ BitVec.toNat_setWidth_of_le (by decide)
  · have heffect := effectOf_ldVxK_of_none x (s.firstKey_eq_none.mpr hnone)
    exact does_encode (i := .ldVxK x) (by rw [heffect]; rfl)

end Sys2Proof.Machine
end

section
/-! PROOF. What a step reports (O9, O11, O12), the operations other than `Step` (O19 to O22), and that a fault is final
(O60). -/

namespace Sys2Proof.Machine

/-! ### Reports -/

/-- The report of a halted step: the fault of the status it stands in. -/
theorem stepReport_of_halted {s : State} (hs : s.status ≠ .running) :
    stepReport s = faultReport s.status s.pc s.fetchWord := by
  simp [stepReport, State.halted, hs]

/-- The report of a decoded instruction: the fault of the status its effect leaves. -/
theorem stepReport_of_instr {s : State} {i : Instr} (hs : s.status = .running) (hd : decode s.fetchWord = .ok i) :
    stepReport s = faultReport ((effectOf s i).apply s).status s.pc s.fetchWord := by
  simp [stepReport, s.halted_eq_false.mpr hs, hd, exec_eq]

/-- Settles O9: the step is `step_of_halted`, the report `stepReport_of_halted`. -/
theorem haltedStepDoesNothing : Obligations.HaltedStepDoesNothing := by
  intro s hs
  refine ⟨step_of_halted s hs, fun h => ?_, fun h => ?_⟩
  · rw [stepReport_of_halted hs, h]; rfl
  · rw [stepReport_of_halted hs, h]; rfl

/-- O49 read for one instruction: every one but CALL and RET keeps the status. -/
theorem effectOf_keeps_status {s : State} {i : Instr} (hd : decode s.fetchWord = .ok i) (hs : s.status = .running)
    (hcall : ∀ nnn, i ≠ .call nnn) (hret : i ≠ .ret) : ((effectOf s i).apply s).status = s.status := by
  have hnocall (nnn : Addr) : decode s.fetchWord ≠ .ok (.call nnn) := by simpa [hd] using hcall nnn
  have hnoret : decode s.fetchWord ≠ .ok .ret := by simpa [hd] using hret
  have hstep : step s = .next ((effectOf s i).apply s) := by rw [step_eq, stepEffect_of_instr hs hd]
  rcases onlyCallAndRetTouchTheStack s _ hstep with
    ⟨_, _, h⟩ | ⟨_, _, h | ⟨nnn, h⟩⟩ | ⟨_, _, _, nnn, h⟩ | ⟨_, _, _, h⟩
  · exact h
  · exact absurd h hnoret
  · exact absurd h (hnocall nnn)
  · exact absurd h (hnocall nnn)
  · exact absurd h hnoret

/-- Settles O11: the unknown opcode is O8's; an instruction reports by the status it leaves, which only the faults of
CALL and RET change. -/
theorem stepReportsOnlyTheThreeConditions : Obligations.StepReportsOnlyTheThreeConditions := by
  intro s hs
  refine ⟨fun w hd => stepReport_of_unknown hs hd, fun nnn hd => ?_, fun hd => ?_, fun i hd hcall hret => ?_⟩
  · rw [stepReport_of_instr hs hd]
    by_cases hfull : s.sp.val = 16
    · rw [if_pos hfull, effectOf_call_of_full nnn hfull]; rfl
    · rw [if_neg hfull, effectOf_call_of_room nnn (by omega)]
      exact congrArg (faultReport · s.pc s.fetchWord) hs
  · rw [stepReport_of_instr hs hd]
    by_cases hempty : s.sp.val = 0
    · rw [if_pos hempty, effectOf_ret_of_empty hempty]; rfl
    · have htop := (Nat.sub_one_add_one hempty).symm
      rw [if_neg hempty, effectOf_ret_of_succ (k := ⟨s.sp.val - 1, by omega⟩) htop]
      exact congrArg (faultReport · s.pc s.fetchWord) hs
  · rw [stepReport_of_instr hs hd, effectOf_keeps_status hd hs hcall hret, hs]; rfl

/-- The next step reports the fault this one took: `status` alone changed, so PC and the word there are the same. -/
theorem stepReport_setStatus {s : State} {i : Instr} {code : Status} (hs : s.status = .running)
    (hd : decode s.fetchWord = .ok i) (hcode : code ≠ .running) (ht : step s = .next (s.setStatus code)) :
    stepReport (s.setStatus code) = stepReport s := by
  have heffect : s.setStatus code = (effectOf s i).apply s := stepEffect_of_instr hs hd ▸ eq_apply_of_step ht
  rw [stepReport_of_halted (s := s.setStatus code) hcode, stepReport_of_instr hs hd, ← heffect]
  rfl

/-- Settles O12: by O49 a step that halts the machine is a CALL or RET that took its fault. -/
theorem faultReportRepeats : Obligations.FaultReportRepeats := by
  intro s t hs hstep hhalted
  rcases onlyCallAndRetTouchTheStack s t hstep with
    ⟨_, _, hsame⟩ | ⟨_, hrun, _⟩ | ⟨_, rfl, _, nnn, hd⟩ | ⟨_, rfl, _, hd⟩
  · exact absurd (hsame.trans hs) hhalted
  · exact absurd hrun hhalted
  · exact stepReport_setStatus hs hd hhalted hstep
  · exact stepReport_setStatus hs hd hhalted hstep

/-! ### Frames -/

/-- A frame may name more pieces of state. -/
theorem OnlyChanges.mono {ps qs : List Part} {s t : State} (h : OnlyChanges ps s t) (sub : ps ⊆ qs) :
    OnlyChanges qs s t :=
  h.restrict fun _ hp hq => absurd (sub hp) hq

theorem OnlyChanges.refl (ps : List Part) (s : State) : OnlyChanges ps s s := by
  intro p _
  cases p with
  | v | mem => exact fun _ => rfl
  | _ => rfl

/-! ### The timers -/

theorem countDown_toNat (b : Byte) : (countDown b).toNat = b.toNat - 1 := by
  unfold countDown
  split <;> rename_i h
  · have hone : 1#8 ≤ b := Nat.succ_le_of_lt h
    rw [BitVec.toNat_sub_of_le hone]; rfl
  · rw [Nat.eq_zero_of_not_pos h]; rfl

/-- A tick writes DT and ST. -/
theorem State.tick_onlyChanges (s : State) : OnlyChanges [.dt, .st] s (tick s).1 :=
  (s.setDt_onlyChanges (countDown s.dt)).trans (State.setSt_onlyChanges _ (countDown s.st))

/-- The tone bit is ST above 0 after the decrement, so ST above 1 before it (R151). -/
theorem tick_tone_iff (s : State) : (tick s).2 = true ↔ 1 < s.st.toNat := by
  show decide (0 < (countDown s.st).toNat) = true ↔ _
  rw [decide_eq_true_iff, countDown_toNat]
  omega

/-- Settles O19: the frame, and each timer and the tone by `countDown_toNat`. -/
theorem tickCountsDown : Obligations.TickCountsDown := fun s =>
  ⟨countDown_toNat s.dt, countDown_toNat s.st, s.tick_onlyChanges, decide_eq_true_iff, tick_tone_iff s, rfl⟩

/-- Settles O20, by induction on the number of ticks; the tone of the tick after them is `tick_tone_iff`. -/
theorem ticksDecayTheTimers : Obligations.TicksDecayTheTimers := by
  intro n
  induction n with
  | zero =>
    intro s
    exact ⟨s, rfl, rfl, rfl, .refl _ s, by simpa using tick_tone_iff s⟩
  | succ n ih =>
    intro s
    obtain ⟨t, hrun, hdt, hst, hframe, htone⟩ := ih (tick s).1
    rw [State.tick_dt, countDown_toNat] at hdt
    rw [State.tick_st, countDown_toNat] at hst htone
    exact ⟨t, hrun, by omega, by omega, (s.tick_onlyChanges.trans hframe).mono (by simp), htone.trans (by omega)⟩

/-! ### The keypad and the dirty flag -/

theorem setKey_of_outside {index : Int} (pressed : Bool) (s : State) (h : index < 0 ∨ 15 < index) :
    setKey index pressed s = s := dif_neg (by omega)

theorem keyDown_setKey (index : Int) (pressed : Bool) (s : State) (k : Nibble) :
    (setKey index pressed s).keyDown k = if (k.toNat : Int) = index then pressed else s.keyDown k := by
  by_cases h : 0 ≤ index ∧ index ≤ 15
  · have hindex : index.toNat = k.toNat ↔ (k.toNat : Int) = index := by omega
    simp [setKey, h, State.keyDown, Vector.getElem_set, hindex]
  · rw [setKey_of_outside pressed s (by omega), if_neg (by omega)]

theorem State.setKey_onlyChanges (s : State) (index : Int) (pressed : Bool) :
    OnlyChanges [.key] s (setKey index pressed s) := by
  intro p hp
  cases p with
  | key => simp at hp
  | _ => simp [SamePart]

/-- Settles O21: what a key reads afterwards is `keyDown_setKey`; an index outside 0..15 is `setKey_of_outside`. -/
theorem setKeyWritesOneKey : Obligations.SetKeyWritesOneKey := fun s index pressed =>
  ⟨_, rfl, keyDown_setKey index pressed s, setKey_of_outside pressed s, s.setKey_onlyChanges index pressed⟩

theorem State.clearDirty_onlyChanges (s : State) : OnlyChanges [.dirty] s (clearDirty s) := by
  intro p hp
  cases p with
  | dirty => simp at hp
  | v | mem => exact fun _ => rfl
  | _ => rfl

/-- Settles O22: the flag by definition, the rest by the frame of `clearDirty`. -/
theorem clearDirtyClearsOnlyDirty : Obligations.ClearDirtyClearsOnlyDirty := fun s =>
  ⟨_, rfl, rfl, s.clearDirty_onlyChanges⟩

/-! ### A fault is final -/

/-- The reset state is running, so no halted machine takes a program (R173). -/
theorem loadProgram_of_halted (bytes : List Byte) {s : State} (hs : s.status ≠ .running) :
    loadProgram bytes s = .refused .loadOutsideReset :=
  if_pos fun h => hs (congrArg State.status h)

/-- One operation that is no `Reset`, in a halted machine. -/
theorem perform_of_halted {op : HostOp} {s t : State} (hop : ∀ cfg, op ≠ .reset cfg) (hs : s.status ≠ .running)
    (h : perform op s = .next t) : OnlyChanges [.dt, .st, .dirty, .key] s t := by
  cases op with
  | reset cfg => exact absurd rfl (hop cfg)
  | loadProgram bytes => simp [perform, loadProgram_of_halted bytes hs] at h
  | step =>
    rw [perform, step_of_halted s hs] at h
    cases h; exact .refl _ s
  | tick => cases h; exact s.tick_onlyChanges.mono (by simp)
  | setKey index pressed => cases h; exact (s.setKey_onlyChanges index pressed).mono (by simp)
  | clearDirty => cases h; exact s.clearDirty_onlyChanges.mono (by simp)

/-- A schedule that completes performs its first operation and then the rest. -/
theorem runOps_cons_eq_next {op : HostOp} {rest : List HostOp} {s t : State} (h : runOps (op :: rest) s = .next t) :
    ∃ u, perform op s = .next u ∧ runOps rest u = .next t := by
  rw [runOps] at h
  split at h
  · exact ⟨_, ‹_›, h⟩
  · cases h
  · cases h

/-- Settles O60, by induction on the schedule: each operation keeps the status, so the machine is halted at the next. -/
theorem faultIsFinal : Obligations.FaultIsFinal := by
  intro ops
  induction ops with
  | nil => intro s t _ _ h; cases h; exact .refl _ s
  | cons op rest ih =>
    intro s t hops hs h
    obtain ⟨u, hop, hrest⟩ := runOps_cons_eq_next h
    have hframe := perform_of_halted (fun cfg hcfg => hops cfg (by simp [hcfg])) hs hop
    have hstatus : u.status = s.status := hframe .status (by simp)
    have hrest := ih u t (fun cfg hcfg => hops cfg (.tail _ hcfg)) (hstatus ▸ hs) hrest
    exact (hframe.trans hrest).mono (by simp)

end Sys2Proof.Machine
end

section
/-! PROOF. `Reset` in any state (O14), and the program load (O15). -/

namespace Sys2Proof.Machine

/-! ### Reset -/

theorem hostReset_of_legal {cfg : Config} (h : cfg.legal) : hostReset cfg = .next (State.resetWith cfg) := if_pos h

theorem hostReset_of_illegal {cfg : Config} (h : ¬ cfg.legal) : hostReset cfg = .refused .illegalConfig := if_neg h

/-- Settles O14: `hostReset` does not read the state, and a configuration is legal by the bound on FONT_BASE. -/
theorem resetWorksInAnyState : Obligations.ResetWorksInAnyState := fun _ _ =>
  ⟨fun h => hostReset_of_legal h, fun h => hostReset_of_illegal (Nat.not_le_of_lt h)⟩

/-! ### Program load -/

/-- The reset state passes the check of `LoadProgram`, because it holds its own configuration. -/
theorem loadProgram_resetWith (bytes : List Byte) (cfg : Config) :
    loadProgram bytes (State.resetWith cfg) =
      if 3584 < bytes.length then .fault .romTooLarge
      else .next ((State.resetWith cfg).memWriteBlock 0x200 bytes) :=
  if_neg fun h => h rfl

/-- An image that fits is stored from 0x200 on and reaches no further than 0xFFF, so that no address of it wraps. -/
theorem State.memWriteBlock_program_post (s : State) {bytes : List Byte} (hfits : bytes.length ≤ 3584) :
    let t := s.memWriteBlock 0x200 bytes
    (∀ (j : Nat) (h : j < bytes.length), t.memRead (0x200 + j) = bytes[j]) ∧
    (∀ a, (∀ j, j < bytes.length → a % 4096 ≠ 0x200 + j) → t.memRead a = s.memRead a) ∧
    OnlyChanges [.mem] s t := by
  refine ⟨fun j hj => ?_, fun a hout => ?_, s.memWriteBlock_onlyChanges 0x200 bytes⟩
  · exact s.memRead_memWriteBlock_inside 0x200 bytes j hj (by omega)
  · refine s.memRead_memWriteBlock_outside 0x200 bytes a fun j hj => ?_
    have hnowrap : (0x200 + j) % 4096 = 0x200 + j := Nat.mod_eq_of_lt (by omega)
    rw [hnowrap]
    exact hout j hj

/-- Settles O15: in the reset state the length decides between the block write and the fault; any other state fails the
check of `LoadProgram`. -/
theorem loadProgramCopiesOrStops : Obligations.LoadProgramCopiesOrStops := by
  refine fun bytes => ⟨fun cfg hfits => ?_, fun cfg hlong => ?_, fun s hs => if_pos hs⟩
  · exact ⟨_, (loadProgram_resetWith bytes cfg).trans (if_neg (Nat.not_lt_of_le hfits)),
      State.memWriteBlock_program_post _ hfits⟩
  · exact (loadProgram_resetWith bytes cfg).trans (if_pos hlong)

end Sys2Proof.Machine
end
